-- ==== Sys2Proof/Word.lean ====
section
/-! DEFINITION. The bit vectors of the core, at the widths of spec/00_scope.md R6 and 10_state.md R13. -/

namespace Sys2Proof

/-- A 1-bit cell: carry and the test pin. -/
abbrev Bit := BitVec 1

/-- A 4-bit cell: the accumulator, a general register, a condition mask, an address nibble. -/
abbrev Nibble := BitVec 4

/-- An opcode byte, an operand byte, a register pair's value. -/
abbrev Byte := BitVec 8

/-- An address of the instruction store, a program counter value, a stack slot. -/
abbrev Addr := BitVec 12

/-- The index of a general register, R0 to R15. -/
abbrev RegIx := Fin 16

/-- The index of a register pair, P0 to P7. -/
abbrev PairIx := Fin 8

end Sys2Proof
end

