-- ==== Sys2Proof/Config.lean ====
section
/-! DEFINITION. What the spec leaves to a parameter (00_scope.md R7): the construction-time parameters, their
defaults, and the one value that every claim must hold for both ways. -/

namespace Sys2Proof

/-- `PC_OVERFLOW` (R7, 40_engine.md R65): what advancing the program counter from 4095 does. -/
inductive PcOverflow where
  | wrap
  | fault
deriving DecidableEq, Repr

/-- `JUMP_TOP_REGISTERED` (R7, 30_encoding.md R58): whether 0x1F, 0x4F and 0x5F are registered. -/
structure JumpTop where
  jcn : Bool
  jun : Bool
  jms : Bool
deriving DecidableEq, Repr

/-- The parameters fixed at construction (R7). `JCN_INIT` is `Config.jcnInit` instead: see there. -/
structure Params where
  pcOverflow : PcOverflow
  jumpTop : JumpTop
  /-- `DAC_ZERO_RESULT`, what DAC leaves in the accumulator when it held 0 (43_accumulator.md R92). -/
  dacZeroResult : Nibble
  /-- `DP_WIDTH`, the width in bits of the data pointer (10_state.md R27). -/
  dpWidth : Nat
deriving DecidableEq, Repr

/-- The defaults of R7. DESIGN CHOICE (logs 1 to 4): the spec's own choices, 92_eei_decisions.md D1, D2, D4, D5. -/
def Params.default : Params where
  pcOverflow := .wrap
  jumpTop := { jcn := false, jun := false, jms := false }
  dacZeroResult := 0xF
  dpWidth := 8

/-- `JCN_INIT` (R7, 41_control.md R75): the condition of a JCN before any of its bits 0 to 2 is tested. The source
does not give it and "a claim about a program that executes `0x10` or `0x18` must hold for both values", so it has no
body: no proof can see which value it is (log 8). -/
opaque Config.jcnInit : Bool

end Sys2Proof
end

