-- ==== Sys2Proof/Syntax.lean ====
section
/-! DEFINITION. The instructions: one constructor per row of spec/opcode_table.json, with the operand that is pre-bound
in its opcode byte (30_encoding.md R55). The operand byte `b2` of a two-byte instruction is no part of the term: the
handler fetches it itself (40_engine.md R68). -/

namespace Sys2Proof

/-- The instructions of 30_encoding.md R55. `c` is a condition mask, `p` a pair index, `a4` address bits 11:8, `r` a
register index, `d` an immediate. -/
inductive Instr where
  | nop
  | jcn (c : Nibble)
  | fim (p : PairIx)
  | jin (p : PairIx)
  | jun (a4 : Nibble)
  | jms (a4 : Nibble)
  | inc (r : RegIx)
  | add (r : RegIx)
  | sub (r : RegIx)
  | ld (r : RegIx)
  | xch (r : RegIx)
  | bbl (d : Nibble)
  | ldm (d : Nibble)
  | clb
  | clc
  | iac
  | dac
deriving DecidableEq, Repr

/-- Whether the instruction has an operand byte: "JCN, FIM, JUN and JMS are 2 bytes" (R50, R53). -/
def Instr.hasOperandByte : Instr → Bool
  | .jcn _ => true
  | .fim _ => true
  | .jun _ => true
  | .jms _ => true
  | .nop => false
  | .jin _ => false
  | .inc _ => false
  | .add _ => false
  | .sub _ => false
  | .ld _ => false
  | .xch _ => false
  | .bbl _ => false
  | .ldm _ => false
  | .clb => false
  | .clc => false
  | .iac => false
  | .dac => false

/-- The instruction's length in bytes (R50). -/
def Instr.length (i : Instr) : Nat := if i.hasOperandByte then 2 else 1

end Sys2Proof
end

