-- ==== Sys2Proof/WellFormed.lean ====
section
/-! DEFINITION. Which instructions the registry holds. Register, pair, mask and immediate ranges are in the types; what
is left is the top encoding of the three two-byte jump families (30_encoding.md R56, R58). -/

namespace Sys2Proof

/-- The instruction has an encoding under these parameters: JCN, JUN and JMS with the low nibble 15 only where
`JUMP_TOP_REGISTERED` says so (R58). -/
def Instr.wellFormed (J : JumpTop) : Instr → Bool
  | .jcn c => c != 15 || J.jcn
  | .jun a4 => a4 != 15 || J.jun
  | .jms a4 => a4 != 15 || J.jms
  | .nop => true
  | .fim _ => true
  | .jin _ => true
  | .inc _ => true
  | .add _ => true
  | .sub _ => true
  | .ld _ => true
  | .xch _ => true
  | .bbl _ => true
  | .ldm _ => true
  | .clb => true
  | .clc => true
  | .iac => true
  | .dac => true

end Sys2Proof
end

