-- ==== Sys2Proof/Decode.lean ====
section
/-! DEFINITION. Decoding and encoding (spec/30_encoding.md): the decode function of R55, the opcode registry of R54 to
R57, decoding of a byte list, and the encoder. The byte values are those of R56; most of them are the Intel 4004's,
which the spec supplies from general knowledge (D6; PRESUMED, log 9). -/

namespace Sys2Proof

/-! ### Fields of an opcode byte (R51, R52) -/

/-- `op[7:4]`. -/
def highNibble (op : Byte) : Nibble := op.extractLsb' 4 4

/-- `op[3:0]`: a condition mask, address bits 11:8 or an immediate. -/
def lowNibble (op : Byte) : Nibble := op.extractLsb' 0 4

/-- `r = op[3:0]`. -/
def regField (op : Byte) : RegIx := ⟨(lowNibble op).toNat, (lowNibble op).isLt⟩

/-- `p = op[3:1]`. -/
def pairField (op : Byte) : PairIx := ⟨(op.extractLsb' 1 3).toNat, (op.extractLsb' 1 3).isLt⟩

/-! ### Decoding one opcode byte -/

/-- The fixed encodings of high nibble 0xF (R56). -/
def decodeFixedF (op : Byte) : Option Instr :=
  if op = 0xF0 then some .clb
  else if op = 0xF1 then some .clc
  else if op = 0xF2 then some .iac
  else if op = 0xF8 then some .dac
  else none

/-- A two-byte jump's opcode: the top encoding only where it is registered (R58). -/
def decodeJump (topRegistered : Bool) (op : Byte) (mk : Nibble → Instr) : Option Instr :=
  if lowNibble op = 15 && !topRegistered then none else some (mk (lowNibble op))

/-- `decode : Byte -> Option Instr` (R55, R56). `none` exactly for the unregistered bytes (R59). -/
def decode (J : JumpTop) (op : Byte) : Option Instr :=
  match (highNibble op).toNat with
  | 0x0 => if op = 0x00 then some .nop else none
  | 0x1 => decodeJump J.jcn op .jcn
  | 0x2 => if op.getLsbD 0 then none else some (.fim (pairField op))
  | 0x3 => if op.getLsbD 0 then some (.jin (pairField op)) else none
  | 0x4 => decodeJump J.jun op .jun
  | 0x5 => decodeJump J.jms op .jms
  | 0x6 => some (.inc (regField op))
  | 0x8 => some (.add (regField op))
  | 0x9 => some (.sub (regField op))
  | 0xA => some (.ld (regField op))
  | 0xB => some (.xch (regField op))
  | 0xC => some (.bbl (lowNibble op))
  | 0xD => some (.ldm (lowNibble op))
  | 0xF => decodeFixedF op
  | _ => none

/-! ### The opcode registry (R54) -/

/-- The registry: an opcode byte and the handler with its pre-bound operand. -/
abbrev Registry := List (Byte × Instr)

/-- An error of the registry's construction (60_exceptions.md R97). Construction-time only, so no step raises it. -/
inductive ConstructionError where
  /-- Two registrations name one byte. Raised by `registryRegister`; safe, since no processor results. -/
  | opcodeCollision (opcode : Byte)
deriving DecidableEq, Repr

/-- `lookup(opcode)` of R54; `none` is UnknownOpcode. -/
def registryLookup : Registry → Byte → Option Instr
  | [], _ => none
  | (b, h) :: rest, op => if b = op then some h else registryLookup rest op

/-- `register(opcode, handler)` of R54. -/
def registryRegister (g : Registry) (op : Byte) (h : Instr) : Except ConstructionError Registry :=
  if (registryLookup g op).isSome then .error (.opcodeCollision op) else .ok ((op, h) :: g)

/-- Registering a list of bindings, in order, up to the first collision. -/
def registryRegisterAll : Registry → List (Byte × Instr) → Except ConstructionError Registry
  | g, [] => .ok g
  | g, (op, h) :: rest =>
    match registryRegister g op h with
    | .ok g' => registryRegisterAll g' rest
    | .error e => .error e

/-- A family of 16 registrations at `base + r`, or 15 where the loop "stops one short" (R57, R58). -/
def nibbleFamily (base size : Nat) (mk : Nibble → Instr) : List (Byte × Instr) :=
  (List.range size).map fun k => (BitVec.ofNat 8 (base + k), mk (BitVec.ofNat 4 k))

/-- A family of 16 registrations over the 4-bit registers (R57). -/
def regFamily (base : Nat) (mk : RegIx → Instr) : List (Byte × Instr) :=
  (List.finRange 16).map fun r => (BitVec.ofNat 8 (base + r.val), mk r)

/-- A family of 8 registrations over the register pairs, two bytes apart (R57). -/
def pairFamily (base : Nat) (mk : PairIx → Instr) : List (Byte × Instr) :=
  (List.finRange 8).map fun p => (BitVec.ofNat 8 (base + 2 * p.val), mk p)

/-- How many encodings of a two-byte jump family are registered (R57, R58). -/
def jumpFamilySize (topRegistered : Bool) : Nat := if topRegistered then 16 else 15

/-- What construction registers: the rows of R56. -/
def registrations (J : JumpTop) : List (Byte × Instr) :=
  [(0x00, .nop)]
    ++ nibbleFamily 0x10 (jumpFamilySize J.jcn) .jcn
    ++ pairFamily 0x20 .fim
    ++ pairFamily 0x31 .jin
    ++ nibbleFamily 0x40 (jumpFamilySize J.jun) .jun
    ++ nibbleFamily 0x50 (jumpFamilySize J.jms) .jms
    ++ regFamily 0x60 .inc
    ++ regFamily 0x80 .add
    ++ regFamily 0x90 .sub
    ++ regFamily 0xA0 .ld
    ++ regFamily 0xB0 .xch
    ++ nibbleFamily 0xC0 16 .bbl
    ++ nibbleFamily 0xD0 16 .ldm
    ++ [(0xF0, .clb), (0xF1, .clc), (0xF2, .iac), (0xF8, .dac)]

/-- Building the registry at construction (10_state.md R29). -/
def registryBuild (J : JumpTop) : Except ConstructionError Registry := registryRegisterAll [] (registrations J)

/-! ### Decoding a list of bytes -/

/-- Why a byte list does not begin with an instruction. -/
inductive DecodeReject where
  | noBytes
  | unregistered (op : Byte)
  | operandMissing (op : Byte)
deriving DecidableEq, Repr

/-- What decoding a byte list gives: the instruction, its operand byte where it has one, and the bytes after it. -/
structure Decoded where
  instr : Instr
  operand : Option Byte
  rest : List Byte
deriving DecidableEq, Repr

/-- Decoding the instruction at the head of a byte stream: the opcode byte first, then the operand byte of a two-byte
instruction, which is never decoded as an opcode (R50, R53, 20_memory.md R39). -/
def decodeBytes (J : JumpTop) : List Byte → Except DecodeReject Decoded
  | [] => .error .noBytes
  | op :: tail =>
    match decode J op with
    | none => .error (.unregistered op)
    | some i =>
      match i.hasOperandByte, tail with
      | false, _ => .ok { instr := i, operand := none, rest := tail }
      | true, b2 :: rest => .ok { instr := i, operand := some b2, rest := rest }
      | true, [] => .error (.operandMissing op)

/-- Byte `k` of a table word: bits `8k + 7` to `8k`, none above `nbits`. -/
def tableByte (nbits w k : Nat) : Byte := BitVec.ofNat 8 (w % 2 ^ nbits / 2 ^ (8 * k))

/-- The instruction the decoder reads from a word numbered as spec/opcode_table.json numbers it (bits 7..0 the opcode
byte, bits 15..8 the operand byte), under the default parameters of 00_scope.md R7. -/
def decodeTableWord (nbits w : Nat) : Option Instr :=
  match decodeBytes Params.default.jumpTop [tableByte nbits w 0, tableByte nbits w 1] with
  | .ok d => some d.instr
  | .error _ => none

/-! ### Encoding -/

/-- The opcode byte of an instruction, written from the formats of R51 and the syntax table of R61. -/
def encode : Instr → Byte
  | .nop => 0x00
  | .jcn c => 0x1#4 ++ c
  | .fim p => 0x2#4 ++ (BitVec.ofNat 3 p.val ++ 0#1)
  | .jin p => 0x3#4 ++ (BitVec.ofNat 3 p.val ++ 1#1)
  | .jun a4 => 0x4#4 ++ a4
  | .jms a4 => 0x5#4 ++ a4
  | .inc r => 0x6#4 ++ BitVec.ofNat 4 r.val
  | .add r => 0x8#4 ++ BitVec.ofNat 4 r.val
  | .sub r => 0x9#4 ++ BitVec.ofNat 4 r.val
  | .ld r => 0xA#4 ++ BitVec.ofNat 4 r.val
  | .xch r => 0xB#4 ++ BitVec.ofNat 4 r.val
  | .bbl d => 0xC#4 ++ d
  | .ldm d => 0xD#4 ++ d
  | .clb => 0xF0
  | .clc => 0xF1
  | .iac => 0xF2
  | .dac => 0xF8

/-- The bytes of an instruction at increasing addresses; `b2` is used only where it has an operand byte (R39, R51). -/
def encodeBytes (i : Instr) (b2 : Byte) : List Byte :=
  match i.hasOperandByte with
  | true => [encode i, b2]
  | false => [encode i]

end Sys2Proof
end

