-- ==== Sys2Proof/Machine/State.lean ====
section
/-! DEFINITION. The state of the core (spec/10_state.md R28), the errors it raises (60_exceptions.md R93), the reasons a
step can stop, and the state after construction (R33). -/

namespace Sys2Proof.Machine

/-- The names of the bounded cells and pairs that the host's accessors reach (10_state.md R31). There is none for the
stack cursor. -/
inductive CellName where
  | acc
  | cy
  | reg (r : RegIx)
  | pair (p : PairIx)
  | pc
  | test
  | stack (k : Fin 3)
  | dp
deriving DecidableEq, Repr

/-- What a RangeError names: a cell, or the instruction store (`"M"`, 20_memory.md R38). -/
inductive Subject where
  | cell (c : CellName)
  | store
deriving DecidableEq, Repr

/-- The error taxonomy of 60_exceptions.md R93. -/
inductive ErrorName where
  | unknownOpcode
  | rangeError
  | invalidTypeError
  | opcodeCollision
deriving DecidableEq, Repr

/-- An error with the info it records (R93, decision D12). These two are the errors a typed model raises; the other two
of R93 are `Refusal.invalidTypeError` (R96) and `ConstructionError.opcodeCollision` (R97). -/
inductive ErrorInfo where
  /-- No handler is registered for the byte `op` fetched at `a0`. -/
  | unknownOpcode (op : Byte) (a0 : Addr)
  /-- The value `value` is outside the range of `subject`. -/
  | rangeError (subject : Subject) (value : Int)
deriving DecidableEq, Repr

/-- The instruction store: the listed bytes at strictly rising addresses; an unlisted address reads as 0x00, which is
what construction leaves there (10_state.md R33). -/
abbrev Memory := List Host.Cell

/-- What an address that is not listed reads as: "a zeroed 4096-byte instruction store" (R33). -/
def Memory.unlisted : Byte := 0x00

/-- Every listed address lies in `[lo, 4096)`, addresses rise strictly, and no entry equals what an unlisted address
reads as. -/
def Memory.wfFrom (lo : Nat) : Memory → Bool
  | [] => true
  | (a, b) :: rest => decide (lo ≤ a) && decide (a < 4096) && b != Memory.unlisted && Memory.wfFrom (a + 1) rest

/-- The canonical form of the store, so that equal stores are equal lists. -/
def Memory.wf (m : Memory) : Bool := Memory.wfFrom 0 m

/-- The processor state (R28), with the parameters that fix the registry (R29) and the fault log (60_exceptions.md
R100). -/
structure State where
  /-- ACC (R20). -/
  acc : Nibble
  /-- CY (R21). -/
  cy : Bit
  /-- R0 to R15 (R19). -/
  regs : Vector Nibble 16
  /-- PC (R25). -/
  pc : Addr
  /-- TEST (R26). -/
  test : Bit
  /-- STACK0 to STACK2 (R24). -/
  stack : Vector Addr 3
  /-- The stack cursor (R24). -/
  sp : Fin 3
  /-- DP (R27): a value below `2 ^ params.dpWidth`, see `State.wf`. -/
  dp : Nat
  /-- M (20_memory.md R35). -/
  mem : Memory
  /-- The construction-time parameters, of which the registry is a function (R29). -/
  params : Params
  /-- Every error raised so far, by a step or by a host call, oldest first, never cleared (60_exceptions.md R100). -/
  faultLog : List ErrorInfo
deriving DecidableEq, Repr

/-- The parts of the state that the types do not bound: the store is in canonical form, and the data pointer fits its
width (R13, R27). -/
def State.wf (s : State) : Bool := s.mem.wf && decide (s.dp < 2 ^ s.params.dpWidth)

/-- The errors that end a step or a host call, each with the state it leaves (60_exceptions.md R98). A run ends at one
(70_reset_and_hazards.md R114), and the host may go on from `after` (R100, `resume`). -/
inductive Fault where
  /-- UnknownOpcode (R94). Raised by `step` on an unregistered byte. Safe: it is the error the spec names, with its
  info record and the state it leaves. -/
  | unknownOpcode (op : Byte) (a0 : Addr) (after : State)
  /-- RangeError (R95). Raised by `execIac` at 15, by `advancePc` at 4095 where `PC_OVERFLOW` is `fault`, by a host
  write and by `loadImage`. Safe: it is the error the spec names, with its info record and the state it leaves. -/
  | rangeError (subject : Subject) (value : Int) (after : State)
deriving DecidableEq, Repr

/-- What the model gives no meaning. -/
inductive Refusal where
  /-- An instruction that has no meaning yet; raised by `exec` only. Safe. No arm of `exec` uses it now. -/
  | notModelled (mnemonic : String)
  /-- A host write of a value that is not an integer; raised by `hostWrite` only, never by a step. "The model refuses
  such a write at the host boundary instead of raising it" (60_exceptions.md R96; log 10). Safe. -/
  | invalidTypeError (cell : CellName) (value : String)
deriving DecidableEq, Repr

/-- The state construction leaves, for any parameters: "all registers at 0, an empty (zeroed) return stack, and a zeroed
4096-byte instruction store" (R33, 70_reset_and_hazards.md R109). -/
def State.construct (P : Params) : State where
  acc := 0
  cy := 0
  regs := Vector.replicate 16 0
  pc := 0x000
  test := 0
  stack := Vector.replicate 3 0x000
  sp := 0
  dp := 0
  mem := []
  params := P
  faultLog := []

/-- The state right after reset, which is construction (70_reset_and_hazards.md R109), under the default parameters. -/
def State.reset : State := State.construct Params.default

end Sys2Proof.Machine
end

