-- ==== Sys2Proof/Machine/Ops.lean ====
section
/-! DEFINITION. The shared operations over the state: raising an error and going on from it, the bounded cell, the
registers, the instruction store, the program counter's advance, the operand fetch and the return stack. -/

namespace Sys2Proof.Machine

/-- An outcome of a step or of a host call. -/
abbrev Result := Host.Outcome State Fault Refusal

/-! ### Writing one piece of state -/

def State.setAcc (s : State) (v : Nibble) : State := { s with acc := v }

def State.setCy (s : State) (v : Bit) : State := { s with cy := v }

def State.setReg (s : State) (r : RegIx) (v : Nibble) : State := { s with regs := s.regs.set r.val v }

def State.setPc (s : State) (v : Addr) : State := { s with pc := v }

def State.setTest (s : State) (v : Bit) : State := { s with test := v }

def State.setStackSlot (s : State) (k : Fin 3) (v : Addr) : State := { s with stack := s.stack.set k.val v }

def State.setSp (s : State) (v : Fin 3) : State := { s with sp := v }

def State.setDp (s : State) (v : Nat) : State := { s with dp := v }

def State.setMem (s : State) (m : Memory) : State := { s with mem := m }

/-- Recording an error in the sticky log (60_exceptions.md R100). -/
def State.logError (s : State) (e : ErrorInfo) : State := { s with faultLog := s.faultLog ++ [e] }

/-! ### Errors -/

/-- The fault that delivers `e` to the caller with the state `after` (60_exceptions.md R98). -/
def faultOf (e : ErrorInfo) (after : State) : Fault :=
  match e with
  | .unknownOpcode op a0 => .unknownOpcode op a0 after
  | .rangeError subject v => .rangeError subject v after

/-- `raise E(info)` in a step or a host call (00_scope.md R9, 60_exceptions.md R98): it ends, every write made before it is
kept, none after it is made, and the error joins the fault log (R100). No state is saved, no mode changes and control
goes to no address. -/
def raise (e : ErrorInfo) (s : State) : Result := .fault (faultOf e (s.logError e))

/-- The state an error leaves. -/
def Fault.after : Fault → State
  | .unknownOpcode _ _ t => t
  | .rangeError _ _ t => t

/-- The error's info record (60_exceptions.md R93). -/
def Fault.info : Fault → ErrorInfo
  | .unknownOpcode op a0 _ => .unknownOpcode op a0
  | .rangeError subject v _ => .rangeError subject v

/-- Going on after an error: the host calls `step()` again at the state the error left; nothing runs on the core in
between (60_exceptions.md R100). -/
def resume (f : Fault) : State := f.after

/-- The numeric codes of 60_exceptions.md R93 (the spec's own, D23). -/
def errorCode : ErrorName → Nat
  | .unknownOpcode => 0
  | .rangeError => 1
  | .invalidTypeError => 2
  | .opcodeCollision => 3

/-- Which error of the taxonomy an info record belongs to. -/
def errorName : ErrorInfo → ErrorName
  | .unknownOpcode _ _ => .unknownOpcode
  | .rangeError _ _ => .rangeError

/-- The symbolic names of the cells (92_eei_decisions.md D10). -/
def cellText : CellName → String
  | .acc => "ACC"
  | .cy => "CY"
  | .reg r => "R" ++ toString r.val
  | .pair p => "P" ++ toString p.val
  | .pc => "PC"
  | .test => "TEST"
  | .stack k => "STACK" ++ toString k.val
  | .dp => "DP"

/-- The name a RangeError records. -/
def subjectText : Subject → String
  | .cell c => cellText c
  | .store => "M"

/-- Going on with `k` where `o` is a next state; a fault or a refusal ends the computation. -/
def andThen (o : Result) (k : State → Result) : Result :=
  match o with
  | .next t => k t
  | .fault f => .fault f
  | .refused r => .refused r

/-! ### The bounded cell (10_state.md R13 to R16) -/

/-- `set(v)` on a cell of width `w` (R14): the new content, or RangeError with the cell left as it was. -/
def cellSet (c : CellName) (w : Nat) (v : Int) : Except ErrorInfo (BitVec w) :=
  if 0 ≤ v ∧ v ≤ 2 ^ w - 1 then .ok (BitVec.ofInt w v) else .error (.rangeError (.cell c) v)

/-- `increment()` is `set(get() + 1)` (R15). -/
def cellIncrement {w : Nat} (c : CellName) (v : BitVec w) : Except ErrorInfo (BitVec w) := cellSet c w (v.toNat + 1)

/-- `decrement()` is `set(get() - 1)` (R15). -/
def cellDecrement {w : Nat} (c : CellName) (v : BitVec w) : Except ErrorInfo (BitVec w) := cellSet c w (v.toNat - 1)

/-- `get_inverted()` (R16): the complement within the width. -/
def cellInverted {w : Nat} (v : BitVec w) : BitVec w := ~~~v

/-! ### The instruction store (20_memory.md) -/

/-- The byte at an address of a store. -/
def memLookup : Memory → Nat → Byte
  | [], _ => Memory.unlisted
  | (a, b) :: rest, x => if a = x then b else memLookup rest x

/-- Storing a byte, keeping the canonical form: addresses rise and no entry holds what an unlisted address reads as. -/
def memInsert : Memory → Nat → Byte → Memory
  | [], x, v => if v = Memory.unlisted then [] else [(x, v)]
  | (a, b) :: rest, x, v =>
    if x < a then (if v = Memory.unlisted then (a, b) :: rest else (x, v) :: (a, b) :: rest)
    else if x = a then (if v = Memory.unlisted then rest else (x, v) :: rest)
    else (a, b) :: memInsert rest x v

/-- Storing bytes at increasing addresses from `start` (R38). -/
def memInsertBytes : Memory → Nat → List Byte → Memory
  | m, _, [] => m
  | m, start, b :: rest => memInsertBytes (memInsert m start b) (start + 1) rest

/-- `M[a]` (R36). A read has no side effect, and a 12-bit address is always in range. -/
def memRead (s : State) (a : Addr) : Byte := memLookup s.mem a.toNat

/-! ### The program counter and the fetch (40_engine.md) -/

/-- `advance_pc()` (R65); 12-bit addition is addition mod 4096. -/
def advancePc (s : State) : Result :=
  match s.params.pcOverflow with
  | .wrap => .next (s.setPc (s.pc + 1))
  | .fault => if s.pc = 4095 then raise (.rangeError (.cell .pc) 4096) s else .next (s.setPc (s.pc + 1))

/-- `fetch8()` (R68, 00_scope.md R9): `b := M[pc]; advance_pc()`, then the rest of the handler with the byte. -/
def fetch8 (s : State) (k : Byte → State → Result) : Result := andThen (advancePc s) (k (memRead s s.pc))

/-! ### The return stack (10_state.md R22 to R24) -/

/-- `push(a)` (R22): writes at the cursor and advances it modulo 3; the oldest entry is silently overwritten. -/
def push (a : Addr) (s : State) : State := (s.setStackSlot s.sp a).setSp (s.sp + 1)

/-- The cursor after `pop()`: decremented modulo 3 (R23). -/
def poppedSp (s : State) : Fin 3 := s.sp - 1

/-- The value `pop()` returns: the slot under the decremented cursor (R23). -/
def popValue (s : State) : Addr := s.stack[(poppedSp s).val]

/-- The state after `pop()`; the slot is not cleared (R23). -/
def popState (s : State) : State := s.setSp (poppedSp s)

/-! ### Placing an instruction for the next fetch -/

/-- The store with the bytes of a table word (`tableByte`) at the program counter and the address after it; see
`State.withFetchWord`. -/
def placeFetchWord (s : State) (nbits w : Nat) : State :=
  s.setMem (memInsert (memInsert s.mem (s.pc + 1).toNat (tableByte nbits w 1)) s.pc.toNat (tableByte nbits w 0))

end Sys2Proof.Machine
end

