-- ==== Sys2Proof/Machine/Operands.lean ====
section
/-! DEFINITION. The operand forms: registers and register pairs (spec/10_state.md R17 to R19) and the jump targets
(30_encoding.md R52). Immediates need no operation: they are written unchanged. -/

namespace Sys2Proof.Machine

/-- `R[r]` (R19). No register is hardwired. -/
def readReg (s : State) (r : RegIx) : Nibble := s.regs[r.val]

/-- The register that holds a pair's high nibble: `R[2p]` (R18). -/
def pairHi (p : PairIx) : RegIx := ⟨2 * p.val, by omega⟩

/-- The register that holds a pair's low nibble: `R[2p+1]` (R18). -/
def pairLo (p : PairIx) : RegIx := ⟨2 * p.val + 1, by omega⟩

/-- `P[p]` as a value: `(hi << 4) | lo` (R17). -/
def readPair (s : State) (p : PairIx) : Byte := readReg s (pairHi p) ++ readReg s (pairLo p)

/-- `P[p] <- v` (R17): the high nibble to the even register, the low nibble to the odd one. -/
def writePair (s : State) (p : PairIx) (v : Byte) : State :=
  (s.setReg (pairHi p) (highNibble v)).setReg (pairLo p) (lowNibble v)

/-- `pc[11:8] : low`, a target in the page of `pc` (00_scope.md R12). -/
def samePageTarget (pc : Addr) (low : Byte) : Addr := pc.extractLsb' 8 4 ++ low

/-- `a4 : low`, an absolute target (30_encoding.md R52, 20_memory.md R39). -/
def absoluteTarget (a4 : Nibble) (low : Byte) : Addr := a4 ++ low

end Sys2Proof.Machine
end

