-- ==== Sys2Proof/Machine/Flags.lean ====
section
/-! DEFINITION. The arithmetic and its carry (spec/43_accumulator.md), computed exactly in the natural numbers before it
is brought back to 4 bits (R85), and the condition of JCN (41_control.md R75). -/

namespace Sys2Proof.Machine

/-- `s := acc + cy + R[r]`, exact, 0 to 31 (R87). -/
def addSum (acc : Nibble) (cy : Bit) (x : Nibble) : Nat := acc.toNat + cy.toNat + x.toNat

/-- ADD's effect on acc and cy (R87): above 15, cy is set and 16 subtracted; otherwise cy is NOT written. -/
def addTo (s : State) (x : Nibble) : State :=
  if addSum s.acc s.cy x > 15 then (s.setCy 1).setAcc (BitVec.ofNat 4 (addSum s.acc s.cy x - 16))
  else s.setAcc (BitVec.ofNat 4 (addSum s.acc s.cy x))

/-- `s := acc + ~R[r] + ~cy`, exact, 0 to 31 (R88). -/
def subSum (acc : Nibble) (cy : Bit) (x : Nibble) : Nat := acc.toNat + (cellInverted x).toNat + (cellInverted cy).toNat

/-- SUB's effect on acc and cy (R88): bit 4 of the sum decides, and cy is always written. -/
def subFrom (s : State) (x : Nibble) : State :=
  if (subSum s.acc s.cy x).testBit 4 then (s.setCy 1).setAcc (BitVec.ofNat 4 (subSum s.acc s.cy x - 16))
  else (s.setCy 0).setAcc (BitVec.ofNat 4 (subSum s.acc s.cy x))

/-- DAC's effect on acc and cy (R92): carry 1 means "no borrow occurred", carry 0 means "wrapped". -/
def decrementAcc (s : State) : State :=
  if s.acc = 0 then (s.setAcc s.params.dacZeroResult).setCy 0
  else (s.setAcc (BitVec.ofNat 4 (s.acc.toNat - 1))).setCy 1

/-- `jcn_cond(c)` (41_control.md R75), with the value `init` before any bit is tested. Each set bit of 0 to 2
overwrites the tested condition, and bit 3 inverts the result. -/
def jcnCond (init : Bool) (c : Nibble) (s : State) : Bool :=
  let t0 := init
  let t1 := if c.getLsbD 0 then decide (s.test = 0) else t0
  let t2 := if c.getLsbD 1 then decide (s.cy = 1) else t1
  let t3 := if c.getLsbD 2 then decide (s.acc = 0) else t2
  if c.getLsbD 3 then !t3 else t3

end Sys2Proof.Machine
end

