-- ==== Sys2Proof/Machine/Accumulator.lean ====
section
/-! DEFINITION. The arithmetic and accumulator group INC, ADD, SUB, CLB, CLC, IAC and DAC (spec/43_accumulator.md). -/

namespace Sys2Proof.Machine

/-- INC Rr (R86): wraps to 0, and leaves the carry and the accumulator alone. -/
def execInc (r : RegIx) (s : State) : Result :=
  .next (s.setReg r (BitVec.ofNat 4 (((readReg s r).toNat + 1) % 16)))

/-- ADD Rr (R87). -/
def execAdd (r : RegIx) (s : State) : Result := .next (addTo s (readReg s r))

/-- SUB Rr (R88). -/
def execSub (r : RegIx) (s : State) : Result := .next (subFrom s (readReg s r))

/-- CLB (R89). -/
def execClb (s : State) : Result := .next ((s.setAcc 0).setCy 0)

/-- CLC (R90). -/
def execClc (s : State) : Result := .next (s.setCy 0)

/-- IAC (R91): `acc.increment()`, a bounded increment that raises RangeError at 15 and does not write the carry. -/
def execIac (s : State) : Result :=
  match cellIncrement .acc s.acc with
  | .ok v => .next (s.setAcc v)
  | .error e => raise e s

/-- DAC (R92). -/
def execDac (s : State) : Result := .next (decrementAcc s)

end Sys2Proof.Machine
end

