-- ==== Sys2Proof/Machine/Control.lean ====
section
/-! DEFINITION. NOP (spec/40_engine.md R73) and the control transfer instructions JCN, JIN, JUN, JMS and BBL
(41_control.md). Every handler starts with the program counter past the opcode byte (R67). -/

namespace Sys2Proof.Machine

/-- NOP (R73): no effect. -/
def execNop (s : State) : Result := .next s

/-- JCN (R74) for a given `JCN_INIT`: the operand fetch, then, if the condition holds, the low 8 bits of the counter
are replaced and the high 4 kept. -/
def execJcnWith (init : Bool) (c : Nibble) (s : State) : Result :=
  fetch8 s fun b2 t => .next (t.setPc (if jcnCond init c t then samePageTarget t.pc b2 else t.pc))

/-- JCN c (R74, R75). `JCN_INIT` is left open (log 8). -/
def execJcn (c : Nibble) (s : State) : Result := execJcnWith Config.jcnInit c s

/-- JIN Pp (R76): the page is that of the counter after the opcode fetch. -/
def execJin (p : PairIx) (s : State) : Result := .next (s.setPc (samePageTarget s.pc (readPair s p)))

/-- JUN a12 (R77). -/
def execJun (a4 : Nibble) (s : State) : Result := fetch8 s fun b2 t => .next (t.setPc (absoluteTarget a4 b2))

/-- JMS a12 (R78): pushes the address after both bytes, then jumps. -/
def execJms (a4 : Nibble) (s : State) : Result :=
  fetch8 s fun b2 t => .next ((push t.pc t).setPc (absoluteTarget a4 b2))

/-- BBL d (R79): pops the return address, then loads the immediate; cy is unchanged. -/
def execBbl (d : Nibble) (s : State) : Result := .next (((popState s).setPc (popValue s)).setAcc d)

end Sys2Proof.Machine
end

