-- ==== Sys2Proof/Machine/Transfer.lean ====
section
/-! DEFINITION. The register transfer instructions FIM, LD, XCH and LDM (spec/42_transfer.md). None of them reads or
writes the carry, the stack or the test pin. -/

namespace Sys2Proof.Machine

/-- FIM Pp, d8 (R81): the operand byte into a register pair. -/
def execFim (p : PairIx) (s : State) : Result := fetch8 s fun b2 t => .next (writePair t p b2)

/-- LD Rr (R82). -/
def execLd (r : RegIx) (s : State) : Result := .next (s.setAcc (readReg s r))

/-- XCH Rr (R83): both are read before either is written. -/
def execXch (r : RegIx) (s : State) : Result := .next ((s.setAcc (readReg s r)).setReg r s.acc)

/-- LDM d (R84). -/
def execLdm (d : Nibble) (s : State) : Result := .next (s.setAcc d)

end Sys2Proof.Machine
end

