-- ==== Sys2Proof/Machine/Dispatch.lean ====
section
/-! DEFINITION. The dispatch of spec/40_engine.md R67: the handler bound to each instruction. -/

namespace Sys2Proof.Machine

/-- Executing a decoded instruction, at the state whose program counter is already past the opcode byte (R67). -/
def exec (i : Instr) (s : State) : Host.Outcome State Fault Refusal :=
  match i with
  | .nop => Sys2Proof.Machine.execNop s
  | .jcn c => Sys2Proof.Machine.execJcn c s
  | .fim p => Sys2Proof.Machine.execFim p s
  | .jin p => Sys2Proof.Machine.execJin p s
  | .jun a4 => Sys2Proof.Machine.execJun a4 s
  | .jms a4 => Sys2Proof.Machine.execJms a4 s
  | .inc r => Sys2Proof.Machine.execInc r s
  | .add r => Sys2Proof.Machine.execAdd r s
  | .sub r => Sys2Proof.Machine.execSub r s
  | .ld r => Sys2Proof.Machine.execLd r s
  | .xch r => Sys2Proof.Machine.execXch r s
  | .bbl d => Sys2Proof.Machine.execBbl d s
  | .ldm d => Sys2Proof.Machine.execLdm d s
  | .clb => Sys2Proof.Machine.execClb s
  | .clc => Sys2Proof.Machine.execClc s
  | .iac => Sys2Proof.Machine.execIac s
  | .dac => Sys2Proof.Machine.execDac s

end Sys2Proof.Machine
end

