-- ==== Sys2Proof/Machine/Step.lean ====
section
/-! DEFINITION. One step of the engine (spec/40_engine.md R63). -/

namespace Sys2Proof.Machine

/-- `step()` (R63): the opcode fetch and the advance past it, the lookup, which raises UnknownOpcode for an unregistered
byte (R66), and the dispatch (R67). The byte a successful step returns (R69) is `stepReturning`'s. -/
def step (s : State) : Host.Outcome State Fault Refusal :=
  fetch8 s fun op t =>
    match decode t.params.jumpTop op with
    | none => raise (.unknownOpcode op s.pc) t
    | some i => exec i t

/-- `s` with the bytes of a table word stored where the next step fetches its opcode and its operand byte. It stands for
the load of a program from outside the machine (20_memory.md R38, log 11). -/
def State.withFetchWord (s : State) (nbits w : Nat) : State := placeFetchWord s nbits w

end Sys2Proof.Machine
end

