-- ==== Sys2Proof/Machine/HostApi.lean ====
section
/-! DEFINITION. What the host can do to the core between steps (spec/10_state.md R31, R32): the accessors, the image
loader, a step with the byte it returns, a run of n steps, and going on after an error. -/

namespace Sys2Proof.Machine

/-- A value the host hands to a write: an integer, or something that is not one (60_exceptions.md R96). -/
inductive HostValue where
  | int (v : Int)
  | nonIntegral (shown : String)
deriving DecidableEq, Repr

/-- Reading a cell or a pair; no side effect (10_state.md R14, R31). -/
def hostRead (c : CellName) (s : State) : Nat :=
  match c with
  | .acc => s.acc.toNat
  | .cy => s.cy.toNat
  | .reg r => (readReg s r).toNat
  | .pair p => (readPair s p).toNat
  | .pc => s.pc.toNat
  | .test => s.test.toNat
  | .stack k => (s.stack[k.val]).toNat
  | .dp => s.dp

/-- The width in bits of a cell or a pair (00_scope.md R6, 10_state.md R17, R27). -/
def cellWidth (c : CellName) (s : State) : Nat :=
  match c with
  | .acc => 4
  | .cy => 1
  | .reg _ => 4
  | .pair _ => 8
  | .pc => 12
  | .test => 1
  | .stack _ => 12
  | .dp => s.params.dpWidth

/-- `set(v)` on the data pointer, whose width is the parameter `DP_WIDTH` (10_state.md R14, R27). -/
def setDataPointer (v : Int) (s : State) : Except ErrorInfo State :=
  if 0 ≤ v ∧ v ≤ 2 ^ s.params.dpWidth - 1 then .ok (s.setDp v.toNat) else .error (.rangeError (.cell .dp) v)

/-- `set(v)` on a cell (R14) or on a pair, which writes both delegates or neither (R17). -/
def hostSet (c : CellName) (v : Int) (s : State) : Except ErrorInfo State :=
  match c with
  | .acc => (cellSet .acc 4 v).map s.setAcc
  | .cy => (cellSet .cy 1 v).map s.setCy
  | .reg r => (cellSet (.reg r) 4 v).map (s.setReg r)
  | .pair p => (cellSet (.pair p) 8 v).map (writePair s p)
  | .pc => (cellSet .pc 12 v).map s.setPc
  | .test => (cellSet .test 1 v).map s.setTest
  | .stack k => (cellSet (.stack k) 12 v).map (s.setStackSlot k)
  | .dp => setDataPointer v s

/-- The result of a host write. One out of range raises: the error goes to the caller and no cell changes (10_state.md
R31), and it joins the fault log as every error does (60_exceptions.md R100, log 7). -/
def hostResult (s : State) : Except ErrorInfo State → Result
  | .ok t => .next t
  | .error e => raise e s

/-- A write accessor (R31). A value that is not an integer is refused at the boundary (60_exceptions.md R96, log 10). -/
def hostWrite (c : CellName) (v : HostValue) (s : State) : Result :=
  match v with
  | .int n => hostResult s (hostSet c n s)
  | .nonIntegral shown => .refused (.invalidTypeError c shown)

/-- `load_image(start, bytes)` (20_memory.md R38): all or nothing, and only the store changes. A load out of bounds
changes no cell and no byte; its error joins the fault log (60_exceptions.md R100, log 7). -/
def loadImage (start : Int) (bytes : List Byte) (s : State) : Result :=
  if start < 0 ∨ start > 4095 then raise (.rangeError .store start) s
  else if bytes.length > 0 ∧ start + bytes.length - 1 > 4095 then
    raise (.rangeError .store (start + bytes.length - 1)) s
  else .next (s.setMem (memInsertBytes s.mem start.toNat bytes))

/-- What a call of `step()` gives its caller: the new state with the opcode byte executed, or the error
(40_engine.md R69). -/
def stepReturning (s : State) : Host.Outcome (State × Byte) Fault Refusal :=
  match step s with
  | .next t => .next (t, memRead s s.pc)
  | .fault f => .fault f
  | .refused r => .refused r

/-- The result of a run (70_reset_and_hazards.md R114). -/
structure RunResult where
  final : State
  bytes : List Byte
  error : Option Fault
deriving DecidableEq, Repr

/-- A run of `n` calls to `step()`, ending at the first error (R114). A step never refuses; the arm for it ends the
run where it stands. -/
def hostRun : Nat → State → RunResult
  | 0, s => { final := s, bytes := [], error := none }
  | n + 1, s =>
    match stepReturning s with
    | .next (t, b) =>
      let r := hostRun n t
      { r with bytes := b :: r.bytes }
    | .fault f => { final := f.after, bytes := [], error := some f }
    | .refused _ => { final := s, bytes := [], error := none }

/-- The host's moves, made one at a time and never during a step (10_state.md R32). Reads change nothing and are not
listed. -/
inductive HostMove where
  | step
  | write (c : CellName) (v : HostValue)
  | loadImage (start : Int) (bytes : List Byte)
deriving DecidableEq, Repr

/-- Making one move. -/
def hostMove (m : HostMove) (s : State) : Result :=
  match m with
  | .step => step s
  | .write c v => hostWrite c v s
  | .loadImage start bytes => loadImage start bytes s

/-- The state a move leaves: after an error, the state the error left, from which the host may go on
(60_exceptions.md R100). -/
def stateAfter (s : State) : Result → State
  | .next t => t
  | .fault f => resume f
  | .refused _ => s

/-- A session of host moves, going on after every error (60_exceptions.md R100, 70_reset_and_hazards.md R111). -/
def hostSession : List HostMove → State → State
  | [], s => s
  | m :: rest, s => hostSession rest (stateAfter s (hostMove m s))

end Sys2Proof.Machine
end

