-- ==== Sys2Proof/Safety.lean ====
section
/-! DEFINITION. What counts as a safe step and a safe run, and the words the claims use for what stays the same. -/

namespace Sys2Proof.Safety

open Sys2Proof.Machine

/-- Advancing the program counter from `a` raises nothing: the counter wraps, or it is not at 4095 (40_engine.md R65). -/
def CanAdvance (s : State) : Prop := s.params.pcOverflow = .wrap ∨ s.pc ≠ 4095

/-- The step raises no error and has a meaning. -/
def StepSafe (s : State) : Prop := ∃ t, step s = .next t

/-- `n` steps, ending at the first error (70_reset_and_hazards.md R114): `Host.Core.run` of this core (`core_run_eq`). -/
def runSteps : Nat → State → Host.Outcome State Fault Refusal
  | 0, s => .next s
  | n + 1, s => andThen (step s) (runSteps n)

/-- `n` steps with no error. -/
def RunSafe (n : Nat) (s : State) : Prop := ∃ t, runSteps n s = .next t

/-- No step and no host call has raised an error so far: "a claim of no error is a claim about the whole run" (60_exceptions.md R100). -/
def NoErrorYet (s : State) : Prop := s.faultLog = []

/-- `t` is a state that outcome `o` leaves: its next state, or the state its error leaves (60_exceptions.md R98). -/
def Leaves (o : Host.Outcome State Fault Refusal) (t : State) : Prop := o = .next t ∨ ∃ f, o = .fault f ∧ f.after = t

/-- Changing the state of an outcome: the next state, or the state an error leaves. -/
def onState (f : State → State) (o : Host.Outcome State Fault Refusal) : Host.Outcome State Fault Refusal :=
  match o with
  | .next t => .next (f t)
  | .fault (.unknownOpcode op a0 t) => .fault (.unknownOpcode op a0 (f t))
  | .fault (.rangeError subject v t) => .fault (.rangeError subject v (f t))
  | .refused r => .refused r

/-- The instruction transfers control (41_control.md). -/
def transfersControl : Instr → Bool
  | .jcn _ => true
  | .jin _ => true
  | .jun _ => true
  | .jms _ => true
  | .bbl _ => true
  | .nop => false
  | .fim _ => false
  | .inc _ => false
  | .add _ => false
  | .sub _ => false
  | .ld _ => false
  | .xch _ => false
  | .ldm _ => false
  | .clb => false
  | .clc => false
  | .iac => false
  | .dac => false

/-- Two accessor names reach a common cell: they are the same, or one is a pair and the other one of its two registers
(10_state.md R17, R18). -/
def overlaps : CellName → CellName → Bool
  | .pair p, .reg r => r.val / 2 == p.val
  | .reg r, .pair p => r.val / 2 == p.val
  | c, d => c == d

/-- Whether `load_image(start, bytes)` is in bounds (20_memory.md R38). -/
def imageFits (start : Int) (bytes : List Byte) : Bool :=
  decide (0 ≤ start ∧ start ≤ 4095 ∧ (bytes.length = 0 ∨ start + bytes.length - 1 ≤ 4095))

/-- The byte at address `a` after a list of host moves, `b` before them: what the last image that fits and covers `a`
put there (20_memory.md R44). Written from the list of moves alone. -/
def lastLoaded : List HostMove → Nat → Byte → Byte
  | [], _, b => b
  | .step :: rest, a, b => lastLoaded rest a b
  | .write _ _ :: rest, a, b => lastLoaded rest a b
  | .loadImage start bytes :: rest, a, b =>
    lastLoaded rest a
      (if imageFits start bytes && decide (start.toNat ≤ a) then (bytes[a - start.toNat]?).getD b else b)

/-- Every byte of the instruction store reads the same. -/
def SameMemory (s t : State) : Prop := ∀ a : Addr, memRead t a = memRead s a

/-- Every general register holds the same. -/
def SameRegs (s t : State) : Prop := ∀ r : RegIx, readReg t r = readReg s r

/-- The return stack's slots and cursor are the same. -/
def SameStack (s t : State) : Prop := t.stack = s.stack ∧ t.sp = s.sp

/-- The cells that only the host writes, and what is fixed at construction, are the same. -/
def SameHostCells (s t : State) : Prop := t.test = s.test ∧ t.dp = s.dp ∧ t.params = s.params

end Sys2Proof.Safety
end

