-- ==== Sys2Proof/Certificates/Slice0/Obligations.lean ====
section
/-! DEFINITION. The statements for the provers. Each docstring names the rules of spec/ it rests on. `t = { s with x := t.x }`
says that nothing but the fields named changes: it is the frame, the whole instruction store included. "log n" names
notes/assumptions/n.md where a clause is the model's choice or an inference the spec marks as its own. -/

open Sys2Proof Sys2Proof.Machine Sys2Proof.Safety

/-! ### Encoding and the registry (30_encoding.md) -/

/-- R56: which instruction each opcode byte decodes to, row by row, for every `JUMP_TOP_REGISTERED`. Most byte values
and the registry's content are the spec's own choice (D6, D8; logs 9 and 13). -/
def Obligations.DecodeIsTheOpcodeMap : Prop :=
  ∀ (J : JumpTop) (op : Byte),
    (decode J op = some .nop ↔ op.toNat = 0x00) ∧
    (∀ c : Nibble, decode J op = some (.jcn c) ↔ op.toNat = 0x10 + c.toNat ∧ (c ≠ 15 ∨ J.jcn = true)) ∧
    (∀ p : PairIx, decode J op = some (.fim p) ↔ op.toNat = 0x20 + 2 * p.val) ∧
    (∀ p : PairIx, decode J op = some (.jin p) ↔ op.toNat = 0x31 + 2 * p.val) ∧
    (∀ a4 : Nibble, decode J op = some (.jun a4) ↔ op.toNat = 0x40 + a4.toNat ∧ (a4 ≠ 15 ∨ J.jun = true)) ∧
    (∀ a4 : Nibble, decode J op = some (.jms a4) ↔ op.toNat = 0x50 + a4.toNat ∧ (a4 ≠ 15 ∨ J.jms = true)) ∧
    (∀ r : RegIx, decode J op = some (.inc r) ↔ op.toNat = 0x60 + r.val) ∧
    (∀ r : RegIx, decode J op = some (.add r) ↔ op.toNat = 0x80 + r.val) ∧
    (∀ r : RegIx, decode J op = some (.sub r) ↔ op.toNat = 0x90 + r.val) ∧
    (∀ r : RegIx, decode J op = some (.ld r) ↔ op.toNat = 0xA0 + r.val) ∧
    (∀ r : RegIx, decode J op = some (.xch r) ↔ op.toNat = 0xB0 + r.val) ∧
    (∀ d : Nibble, decode J op = some (.bbl d) ↔ op.toNat = 0xC0 + d.toNat) ∧
    (∀ d : Nibble, decode J op = some (.ldm d) ↔ op.toNat = 0xD0 + d.toNat) ∧
    (decode J op = some .clb ↔ op.toNat = 0xF0) ∧
    (decode J op = some .clc ↔ op.toNat = 0xF1) ∧
    (decode J op = some .iac ↔ op.toNat = 0xF2) ∧
    (decode J op = some .dac ↔ op.toNat = 0xF8)

/-- R56, R59: the bytes that have no handler are exactly those the opcode map lists as unregistered, which is the spec's
own choice (D8; log 13). -/
def Obligations.UnregisteredBytesAreTheListedOnes : Prop :=
  ∀ (J : JumpTop) (op : Byte),
    decode J op = none ↔
      (0x01 ≤ op.toNat ∧ op.toNat ≤ 0x0F) ∨
      (op.toNat = 0x1F ∧ J.jcn = false) ∨
      (0x20 ≤ op.toNat ∧ op.toNat ≤ 0x2F ∧ op.toNat % 2 = 1) ∨
      (0x30 ≤ op.toNat ∧ op.toNat ≤ 0x3F ∧ op.toNat % 2 = 0) ∨
      (op.toNat = 0x4F ∧ J.jun = false) ∨
      (op.toNat = 0x5F ∧ J.jms = false) ∨
      (0x70 ≤ op.toNat ∧ op.toNat ≤ 0x7F) ∨
      (0xE0 ≤ op.toNat ∧ op.toNat ≤ 0xEF) ∨
      (0xF3 ≤ op.toNat ∧ op.toNat ≤ 0xF7) ∨
      (0xF9 ≤ op.toNat)

/-- R57: 178 registered bytes, and one more for each top encoding that is registered (D2, D8; logs 2 and 13). -/
def Obligations.RegisteredByteCount : Prop :=
  ∀ J : JumpTop,
    ((List.range 256).filter fun n => (decode J (BitVec.ofNat 8 n)).isSome).length =
      178 + J.jcn.toNat + J.jun.toNat + J.jms.toNat

/-- R51 to R53, R39: decoding the bytes of a well-formed instruction, whatever bytes follow, gives it back with its
operand byte, at every operand and every operand byte (byte values: log 9; byte order: log 16). -/
def Obligations.DecodeOfEncodeIsTheInstruction : Prop :=
  ∀ (J : JumpTop) (i : Instr) (b2 : Byte) (rest : List Byte), i.wellFormed J = true →
    decodeBytes J (encodeBytes i b2 ++ rest) =
      .ok { instr := i, operand := if i.hasOperandByte then some b2 else none, rest := rest }

/-- R53, R56: each byte stream has one reading: what is decoded is well formed, takes one byte or two as the opcode
alone says, and encodes to the bytes read (byte values: log 9; byte order: log 16). -/
def Obligations.EncodeOfDecodeIsTheBytes : Prop :=
  ∀ (J : JumpTop) (bytes : List Byte) (d : Decoded), decodeBytes J bytes = .ok d →
    d.instr.wellFormed J = true ∧ d.operand.isSome = d.instr.hasOperandByte ∧
      bytes = encodeBytes d.instr (d.operand.getD 0) ++ d.rest ∧ bytes.length = d.instr.length + d.rest.length

/-- R55: the registry that construction builds is equivalent to `decode`: looking a byte up in it gives what `decode`
gives, none for the bytes that raise UnknownOpcode. That building it raises no collision is R60, which the spec derives
(R97; log 26). -/
def Obligations.RegistryLookupIsDecode : Prop :=
  ∀ J : JumpTop, ∃ g : Registry, registryBuild J = .ok g ∧ ∀ op : Byte, registryLookup g op = decode J op

/-- R54: registering a bound byte raises OpcodeCollision; registering an unbound one binds it and no other. -/
def Obligations.RegisterBindsOnceOrCollides : Prop :=
  ∀ (g : Registry) (op : Byte) (h : Instr),
    (registryLookup g op ≠ none → registryRegister g op h = .error (.opcodeCollision op)) ∧
    (registryLookup g op = none →
      ∃ g', registryRegister g op h = .ok g' ∧ registryLookup g' op = some h ∧
        ∀ b, b ≠ op → registryLookup g' b = registryLookup g b)

/-- R51, R56: a few words written out bit by bit, one of every format (byte values: log 9). -/
def Obligations.WrittenOutWordsDecode : Prop :=
  decode Params.default.jumpTop 0b00000000 = some .nop ∧
  decode Params.default.jumpTop 0b00011100 = some (.jcn 0b1100) ∧
  decode Params.default.jumpTop 0b00101110 = some (.fim 7) ∧
  decode Params.default.jumpTop 0b00110111 = some (.jin 3) ∧
  decode Params.default.jumpTop 0b01000001 = some (.jun 0b0001) ∧
  decode Params.default.jumpTop 0b10001110 = some (.add 14) ∧
  decode Params.default.jumpTop 0b11000111 = some (.bbl 0b0111) ∧
  decode Params.default.jumpTop 0b11111000 = some .dac ∧
  decode Params.default.jumpTop 0b00011111 = none

/-! ### Bounded cells, pairs and the accessors (10_state.md) -/

/-- R14, R31, and for a value that is not an integer the refusal of R96 (D24; log 10): a write accessor succeeds exactly
on the values its cell can hold, which the cell then holds; otherwise the error names the cell and the value (R93, D12; log
25), and no cell changes (the fault log is the model's record and left out here, log 7). -/
def Obligations.HostWriteSucceedsExactlyInRange : Prop :=
  ∀ (c : CellName) (v : Int) (s : State),
    (0 ≤ v ∧ v ≤ 2 ^ cellWidth c s - 1 → ∃ t, hostWrite c (.int v) s = .next t ∧ (hostRead c t : Int) = v) ∧
    (¬(0 ≤ v ∧ v ≤ 2 ^ cellWidth c s - 1) →
      ∃ f, hostWrite c (.int v) s = .fault f ∧ f.info = .rangeError (.cell c) v ∧
        f.after = { s with faultLog := f.after.faultLog }) ∧
    (∀ x : String, hostWrite c (.nonIntegral x) s = .refused (.invalidTypeError c x))

/-- R31: a write accessor that succeeds changes its own cell (or its pair's two registers) and nothing else, the model's
fault log included (log 7). -/
def Obligations.HostWriteChangesOnlyItsCell : Prop :=
  ∀ (c : CellName) (v : Int) (s t : State), hostWrite c (.int v) s = .next t →
    (∀ c', overlaps c c' = false → hostRead c' t = hostRead c' s) ∧
    t.sp = s.sp ∧ t.mem = s.mem ∧ t.params = s.params ∧ t.faultLog = s.faultLog

/-- R17, R18: a pair write puts the high nibble in the even register and the low nibble in the odd one, touches no other
register and nothing else, and reads back as written. Which registers form a pair is the spec's own choice (D7; log 12). -/
def Obligations.PairIsAViewOfTwoRegisters : Prop :=
  ∀ (p : PairIx) (v : Byte) (s : State),
    writePair s p v = { s with regs := (writePair s p v).regs } ∧
    readPair (writePair s p v) p = v ∧
    (∀ q : RegIx,
      (q.val = 2 * p.val → (readReg (writePair s p v) q).toNat = v.toNat / 16 ∧
        (readPair s p).toNat / 16 = (readReg s q).toNat) ∧
      (q.val = 2 * p.val + 1 → (readReg (writePair s p v) q).toNat = v.toNat % 16 ∧
        (readPair s p).toNat % 16 = (readReg s q).toNat) ∧
      (q.val / 2 ≠ p.val → readReg (writePair s p v) q = readReg s q))

/-- R16: the complement within the width, and twice gives the cell back. -/
def Obligations.InvertedIsTheComplementWithinTheWidth : Prop :=
  ∀ (w : Nat) (v : BitVec w), (cellInverted v).toNat = 2 ^ w - 1 - v.toNat ∧ cellInverted (cellInverted v) = v

/-- R15: increment and decrement of a bounded cell step by one inside the range and raise RangeError at its ends. -/
def Obligations.IncrementAndDecrementFailAtTheEnds : Prop :=
  ∀ (c : CellName) (w : Nat) (v : BitVec w),
    (v.toNat + 1 < 2 ^ w → ∃ u, cellIncrement c v = .ok u ∧ u.toNat = v.toNat + 1) ∧
    (v.toNat + 1 = 2 ^ w → cellIncrement c v = .error (.rangeError (.cell c) (2 ^ w))) ∧
    (0 < v.toNat → ∃ u, cellDecrement c v = .ok u ∧ u.toNat + 1 = v.toNat) ∧
    (v.toNat = 0 → cellDecrement c v = .error (.rangeError (.cell c) (-1)))

/-! ### The return stack (10_state.md R22 to R24) -/

/-- R22, R23: push writes the slot under the cursor and advances the cursor modulo 3; pop moves the cursor back modulo 3,
returns that slot and clears nothing (derived by the spec; log 15); so a pop after a push returns what was pushed. -/
def Obligations.PushAndPopAreARing : Prop :=
  ∀ (a : Addr) (s : State),
    (push a s = { s with stack := s.stack.set s.sp.val a, sp := (push a s).sp }) ∧
    (push a s).sp.val = (s.sp.val + 1) % 3 ∧
    (popState s = { s with sp := (popState s).sp }) ∧
    (popState s).sp.val = (s.sp.val + 3 - 1) % 3 ∧
    popValue s = s.stack[(popState s).sp.val] ∧
    popValue (push a s) = a ∧ (popState (push a s)).sp = s.sp

/-- R22: push writes at the cursor and advances it modulo 3, and nothing else changes; so after four pushes the slot that
took the first address holds the fourth, the other two hold the second and the third, and the cursor is one past where it
was. -/
def Obligations.FourthPushOverwritesTheOldest : Prop :=
  ∀ (a1 a2 a3 a4 : Addr) (s : State),
    push a1 s = { s with stack := s.stack.set s.sp.val a1, sp := s.sp + 1 } ∧
    (push a1 s).sp.val = (s.sp.val + 1) % 3 ∧
    ∃ t, push a4 (push a3 (push a2 (push a1 s))) = t ∧ t = { s with stack := t.stack, sp := t.sp } ∧
      t.sp.val = (s.sp.val + 1) % 3 ∧ t.stack[s.sp.val] = a4 ∧
      ∀ k : Fin 3, (k.val = (s.sp.val + 1) % 3 → t.stack[k.val] = a2) ∧ (k.val = (s.sp.val + 2) % 3 → t.stack[k.val] = a3)

/-! ### The instruction store (20_memory.md) -/

/-- R38: an image that fits is copied to its place and nothing else changes; one that does not fit raises RangeError with
the first bound that fails, and no byte is written and no cell changes (the fault log is the model's record and left out
there, log 7). The premise is the store's canonical form, which `SessionKeepsTheStateWellFormed` keeps (log 21); the edge
cases are the spec's own choice (D18; log 17). -/
def Obligations.LoadImageIsAllOrNothing : Prop :=
  ∀ (start : Int) (bytes : List Byte) (s : State), s.mem.wf = true →
    (0 ≤ start → start ≤ 4095 → (bytes = [] ∨ start + bytes.length - 1 ≤ 4095) →
      ∃ t, loadImage start bytes s = .next t ∧ t = { s with mem := t.mem } ∧
        ∀ a : Addr,
          (∀ k b, bytes[k]? = some b → a.toNat = start.toNat + k → memRead t a = b) ∧
          (a.toNat < start.toNat ∨ start.toNat + bytes.length ≤ a.toNat → memRead t a = memRead s a)) ∧
    (start < 0 ∨ start > 4095 →
      ∃ f, loadImage start bytes s = .fault f ∧ f.info = .rangeError .store start ∧
        f.after = { s with faultLog := f.after.faultLog }) ∧
    (0 ≤ start → start ≤ 4095 → bytes ≠ [] → start + bytes.length - 1 > 4095 →
      ∃ f, loadImage start bytes s = .fault f ∧ f.info = .rangeError .store (start + bytes.length - 1) ∧
        f.after = { s with faultLog := f.after.faultLog })

/-- R44: over any session of host moves, an address reads what the last image that fits and covers it put there, or
what it read before, which after construction is 0x00. No step and no other write ever shows in the store. The premise is
the invariant of `SessionKeepsTheStateWellFormed`. -/
def Obligations.FetchReturnsTheLastLoadedByte : Prop :=
  (∀ (moves : List HostMove) (s : State) (a : Addr), s.wf = true →
    memRead (hostSession moves s) a = lastLoaded moves a.toNat (memRead s a)) ∧
  (∀ (moves : List HostMove) (P : Params) (a : Addr),
    memRead (hostSession moves (State.construct P)) a = lastLoaded moves a.toNat 0x00)

/-- The canonical form of the store (the model's own, log 21): two stores in canonical form that read the same at
every address are the same list. -/
def Obligations.EqualStoresAreEqualLists : Prop :=
  ∀ m m' : Memory, m.wf = true → m'.wf = true → (∀ x, x < 4096 → memLookup m x = memLookup m' x) → m = m'

/-! ### The engine (40_engine.md) -/

/-- R65: the advance of the program counter under both readings of `PC_OVERFLOW` (D1; log 1). The fault log is the
model's record and left out here (log 7). -/
def Obligations.AdvanceWrapsOrFaultsAtTheTop : Prop :=
  ∀ s : State,
    (s.params.pcOverflow = .wrap →
      ∃ t, advancePc s = .next t ∧ t = { s with pc := t.pc } ∧ t.pc.toNat = (s.pc.toNat + 1) % 4096) ∧
    (s.params.pcOverflow = .fault → s.pc ≠ 4095 →
      ∃ t, advancePc s = .next t ∧ t = { s with pc := t.pc } ∧ t.pc.toNat = s.pc.toNat + 1) ∧
    (s.params.pcOverflow = .fault → s.pc = 4095 →
      ∃ f, advancePc s = .fault f ∧ f.info = .rangeError (.cell .pc) 4096 ∧
        f.after = { s with faultLog := f.after.faultLog })

/-- R67: where the byte at the program counter decodes to an instruction, a step executes it at the state whose
program counter is past that byte; the operand byte is the handler's to fetch (R68). -/
def Obligations.StepRunsTheDecodedInstruction : Prop :=
  ∀ (s : State) (i : Instr), CanAdvance s → decode s.params.jumpTop (memRead s s.pc) = some i →
    step s = exec i { s with pc := s.pc + 1 }

/-- R94: an unregistered byte raises UnknownOpcode after the program counter has moved past it; no other cell changes (the
fault log is the model's record and left out here, log 7). That the error carries the byte and its address is R93's info
record, the spec's own choice (D12; log 25). -/
def Obligations.UnregisteredByteRaisesPastIt : Prop :=
  ∀ s : State, CanAdvance s → decode s.params.jumpTop (memRead s s.pc) = none →
    ∃ f, step s = .fault f ∧ f.info = .unknownOpcode (memRead s s.pc) s.pc ∧
      f.after = { s with pc := s.pc + 1, faultLog := f.after.faultLog } ∧
      f.after.pc.toNat = (s.pc.toNat + 1) % 4096

/-- R68, R70: under `PC_OVERFLOW = fault`, a two-byte handler whose operand byte is at 4095 raises RangeError in its
operand fetch, before any effect of its own (the fault log is the model's record and left out here, log 7). -/
def Obligations.OperandFetchAtTheTopRaises : Prop :=
  ∀ (i : Instr) (s : State), i.hasOperandByte = true → s.params.pcOverflow = .fault → s.pc = 4095 →
    ∃ f, exec i s = .fault f ∧ f.info = .rangeError (.cell .pc) 4096 ∧ f.after = { s with faultLog := f.after.faultLog }

/-- R70, R99 (both derived by the spec): a step raises exactly these errors, in this order, each leaving exactly this
state, the model's fault log included (log 7); in every other state it completes, and it never refuses. That IAC is the
byte 0xF2 is log 9; the info records are log 25. -/
def Obligations.StepErrorsAreExactlyTheFour : Prop :=
  ∀ s : State,
    (∀ f, step s = .fault f ↔
      (s.params.pcOverflow = .fault ∧ s.pc = 4095 ∧
        f = .rangeError (.cell .pc) 4096 { s with faultLog := s.faultLog ++ [.rangeError (.cell .pc) 4096] }) ∨
      (CanAdvance s ∧ decode s.params.jumpTop (memRead s s.pc) = none ∧
        f = .unknownOpcode (memRead s s.pc) s.pc
          { s with pc := s.pc + 1, faultLog := s.faultLog ++ [.unknownOpcode (memRead s s.pc) s.pc] }) ∨
      (s.params.pcOverflow = .fault ∧ s.pc = 4094 ∧
        (∃ i, decode s.params.jumpTop (memRead s s.pc) = some i ∧ i.hasOperandByte = true) ∧
        f = .rangeError (.cell .pc) 4096
          { s with pc := 4095, faultLog := s.faultLog ++ [.rangeError (.cell .pc) 4096] }) ∨
      (CanAdvance s ∧ memRead s s.pc = 0xF2 ∧ s.acc = 15 ∧
        f = .rangeError (.cell .acc) 16
          { s with pc := s.pc + 1, faultLog := s.faultLog ++ [.rangeError (.cell .acc) 16] })) ∧
    ((∃ t, step s = .next t) ∨ ∃ f, step s = .fault f)

/-- R69: a successful step gives its caller the opcode byte it executed; a step that fails gives the error instead (D20;
log 19). -/
def Obligations.StepReturnsTheOpcodeByte : Prop :=
  ∀ s : State,
    (∀ t, step s = .next t → stepReturning s = .next (t, memRead s s.pc)) ∧
    (∀ f, step s = .fault f → stepReturning s = .fault f)

/-- R25, R50: an instruction that transfers no control leaves the program counter at the address after its last byte. -/
def Obligations.PcMovesByTheLength : Prop :=
  ∀ (s t : State) (i : Instr), step s = .next t → decode s.params.jumpTop (memRead s s.pc) = some i →
    transfersControl i = false → t.pc.toNat = (s.pc.toNat + i.length) % 4096

/-- R42: JCN and JIN stay within the page of the address after the instruction (derived by the spec; log 18). -/
def Obligations.JcnAndJinStayInThePageAfterThem : Prop :=
  ∀ (s t : State) (i : Instr), step s = .next t → decode s.params.jumpTop (memRead s s.pc) = some i →
    ((∃ c, i = .jcn c) ∨ ∃ p, i = .jin p) →
    t.pc.toNat / 256 = (s.pc.toNat + i.length) % 4096 / 256

/-- R100: every error a step, an accessor write or an image load raises is recorded, and nothing clears the fault log,
whose form is the model's (log 7): a move that succeeds keeps it, one that fails adds its error at the end, and over any
session, going on after errors, the log only grows. -/
def Obligations.FaultLogIsNeverCleared : Prop :=
  (∀ (m : HostMove) (s : State),
    (∀ t, hostMove m s = .next t → t.faultLog = s.faultLog) ∧
    (∀ f, hostMove m s = .fault f → f.after.faultLog = s.faultLog ++ [f.info])) ∧
  ∀ (moves : List HostMove) (s : State), ∃ errors, (hostSession moves s).faultLog = s.faultLog ++ errors

/-! ### The instructions -/

/-- R73: NOP at 0x00, and the engine's own advance around it; at 4095 under `PC_OVERFLOW = fault` the advance raises
(the fault log is the model's record and left out here, log 7). -/
def Obligations.NopOnlyAdvancesThePc : Prop :=
  ∀ s : State,
    exec .nop s = .next s ∧ (∀ J : JumpTop, decode J 0x00 = some .nop) ∧
    (memRead s s.pc = 0x00 → CanAdvance s → step s = .next { s with pc := s.pc + 1 }) ∧
    (memRead s s.pc = 0x00 → s.params.pcOverflow = .fault → s.pc = 4095 →
      ∃ f, step s = .fault f ∧ f.info = .rangeError (.cell .pc) 4096 ∧ f.after = { s with faultLog := f.after.faultLog })

/-- R75: the condition of JCN for every mask, a table the spec derives from the rule's pseudocode; the rows 0x0 and 0x8 are
`JCN_INIT`, which is left open (D3; log 8), and its inverse. -/
def Obligations.JcnConditionForEveryMask : Prop :=
  ∀ (init : Bool) (s : State),
    jcnCond init 0x0 s = init ∧ jcnCond init 0x8 s = !init ∧
    jcnCond init 0x1 s = decide (s.test = 0) ∧ jcnCond init 0x9 s = decide (s.test = 1) ∧
    jcnCond init 0x2 s = decide (s.cy = 1) ∧ jcnCond init 0xA s = decide (s.cy = 0) ∧
    jcnCond init 0x3 s = decide (s.cy = 1) ∧ jcnCond init 0xB s = decide (s.cy = 0) ∧
    jcnCond init 0x4 s = decide (s.acc = 0) ∧ jcnCond init 0xC s = decide (s.acc ≠ 0) ∧
    jcnCond init 0x5 s = decide (s.acc = 0) ∧ jcnCond init 0xD s = decide (s.acc ≠ 0) ∧
    jcnCond init 0x6 s = decide (s.acc = 0) ∧ jcnCond init 0xE s = decide (s.acc ≠ 0) ∧
    jcnCond init 0x7 s = decide (s.acc = 0) ∧ jcnCond init 0xF s = decide (s.acc ≠ 0)

/-- R74: JCN fetches its operand byte and, if its condition holds, replaces the low 8 bits of the counter, in the page of
the address after the instruction; the value of `JCN_INIT` is left open (log 8). Where the operand fetch cannot advance
the counter, the engine's RangeError comes from it. -/
def Obligations.JcnReplacesTheLowByteIfTaken : Prop :=
  ∀ (c : Nibble) (s : State),
    (∀ (J : JumpTop) (op : Byte), op.toNat = 0x10 + c.toNat →
      decode J op = if c = 15 ∧ J.jcn = false then none else some (.jcn c)) ∧
    (CanAdvance s → ∃ t, exec (.jcn c) s = .next t ∧ t = { s with pc := t.pc } ∧
      (jcnCond Config.jcnInit c s = true →
        t.pc.toNat = (s.pc.toNat + 1) % 4096 / 256 * 256 + (memRead s s.pc).toNat) ∧
      (jcnCond Config.jcnInit c s = false → t.pc.toNat = (s.pc.toNat + 1) % 4096)) ∧
    (¬CanAdvance s → ∃ f, exec (.jcn c) s = .fault f ∧ f.info = .rangeError (.cell .pc) 4096 ∧
      f.after = { s with faultLog := f.after.faultLog })

/-- R76: JIN replaces the low 8 bits of the counter, which is past the opcode byte, with the pair's value (byte value: log
9; pair mapping: log 12; page: log 18). -/
def Obligations.JinReplacesTheLowByteByThePair : Prop :=
  ∀ (p : PairIx) (s : State),
    (∀ (J : JumpTop) (op : Byte), op.toNat = 0x31 + 2 * p.val → decode J op = some (.jin p)) ∧
    ∃ t, exec (.jin p) s = .next t ∧ t = { s with pc := t.pc } ∧
      ∀ hi lo : RegIx, hi.val = 2 * p.val → lo.val = 2 * p.val + 1 →
        t.pc.toNat = s.pc.toNat / 256 * 256 + 16 * (readReg s hi).toNat + (readReg s lo).toNat

/-- R77: JUN sets the counter to the 12-bit address, whatever it was (byte value: log 9; byte order: log 16). -/
def Obligations.JunJumpsToTheAbsoluteAddress : Prop :=
  ∀ (a4 : Nibble) (s : State),
    (∀ (J : JumpTop) (op : Byte), op.toNat = 0x40 + a4.toNat →
      decode J op = if a4 = 15 ∧ J.jun = false then none else some (.jun a4)) ∧
    (CanAdvance s → ∃ t, exec (.jun a4) s = .next t ∧ t = { s with pc := t.pc } ∧
      t.pc.toNat = 256 * a4.toNat + (memRead s s.pc).toNat)

/-- R78: JMS pushes the address after both its bytes and jumps to the 12-bit address (byte value: log 9; byte order: log
16). -/
def Obligations.JmsPushesTheAddressAfterAndJumps : Prop :=
  ∀ (a4 : Nibble) (s : State),
    (∀ (J : JumpTop) (op : Byte), op.toNat = 0x50 + a4.toNat →
      decode J op = if a4 = 15 ∧ J.jms = false then none else some (.jms a4)) ∧
    (CanAdvance s → ∃ t, exec (.jms a4) s = .next t ∧ t = { s with pc := t.pc, stack := t.stack, sp := t.sp } ∧
      t.pc.toNat = 256 * a4.toNat + (memRead s s.pc).toNat ∧
      t.sp.val = (s.sp.val + 1) % 3 ∧
      (t.stack[s.sp.val]).toNat = (s.pc.toNat + 1) % 4096 ∧
      ∀ k : Fin 3, k ≠ s.sp → t.stack[k.val] = s.stack[k.val])

/-- R79: BBL pops the counter and loads the accumulator; cy is unchanged (byte value: log 9; that the slot is not cleared:
log 15). -/
def Obligations.BblPopsThePcAndLoadsAcc : Prop :=
  ∀ (d : Nibble) (s : State),
    (∀ (J : JumpTop) (op : Byte), op.toNat = 0xC0 + d.toNat → decode J op = some (.bbl d)) ∧
    ∃ t, exec (.bbl d) s = .next t ∧ t = { s with pc := t.pc, acc := d, sp := t.sp } ∧
      t.sp.val = (s.sp.val + 3 - 1) % 3 ∧ t.pc = s.stack[t.sp.val]

/-- R78, R79: a BBL that finds the return stack as a JMS left it returns to the address after that JMS, with the cursor
back where it was. That the popped slot is not cleared is derived by the spec (R23; log 15). -/
def Obligations.BblReturnsAfterTheMatchingJms : Prop :=
  ∀ (a4 d : Nibble) (s t u : State), exec (.jms a4) s = .next t → u.stack = t.stack → u.sp = t.sp →
    ∃ v, exec (.bbl d) u = .next v ∧ v.pc.toNat = (s.pc.toNat + 1) % 4096 ∧ v.acc = d ∧ v.sp = s.sp ∧
      v = { u with pc := v.pc, acc := v.acc, sp := v.sp }

/-- R81: FIM loads its operand byte into the pair and advances the counter past it (byte value: log 9; pair mapping: log
12). -/
def Obligations.FimLoadsTheOperandByteIntoThePair : Prop :=
  ∀ (p : PairIx) (s : State),
    (∀ (J : JumpTop) (op : Byte), op.toNat = 0x20 + 2 * p.val → decode J op = some (.fim p)) ∧
    (CanAdvance s → ∃ t, exec (.fim p) s = .next t ∧ t = { s with pc := t.pc, regs := t.regs } ∧
      t.pc.toNat = (s.pc.toNat + 1) % 4096 ∧
      ∀ q : RegIx,
        (q.val = 2 * p.val → (readReg t q).toNat = (memRead s s.pc).toNat / 16) ∧
        (q.val = 2 * p.val + 1 → (readReg t q).toNat = (memRead s s.pc).toNat % 16) ∧
        (q.val / 2 ≠ p.val → readReg t q = readReg s q))

/-- R82: LD copies a register to the accumulator (byte value: log 9). -/
def Obligations.LdCopiesTheRegisterToAcc : Prop :=
  ∀ (r : RegIx) (s : State),
    (∀ (J : JumpTop) (op : Byte), op.toNat = 0xA0 + r.val → decode J op = some (.ld r)) ∧
    exec (.ld r) s = .next { s with acc := readReg s r }

/-- R83: XCH exchanges the accumulator and a register, and twice restores both (byte value: log 9). -/
def Obligations.XchSwapsAccAndTheRegister : Prop :=
  ∀ (r : RegIx) (s : State),
    (∀ (J : JumpTop) (op : Byte), op.toNat = 0xB0 + r.val → decode J op = some (.xch r)) ∧
    ∃ t, exec (.xch r) s = .next t ∧ t = { s with acc := readReg s r, regs := t.regs } ∧
      readReg t r = s.acc ∧ (∀ q : RegIx, q ≠ r → readReg t q = readReg s q) ∧ exec (.xch r) t = .next s

/-- R84: LDM loads the immediate into the accumulator, without touching cy (byte value: log 9). -/
def Obligations.LdmLoadsTheImmediate : Prop :=
  ∀ (d : Nibble) (s : State),
    (∀ (J : JumpTop) (op : Byte), op.toNat = 0xD0 + d.toNat → decode J op = some (.ldm d)) ∧
    exec (.ldm d) s = .next { s with acc := d }

/-- R86: INC wraps from 15 to 0 and leaves cy and the accumulator alone (byte value: log 9). -/
def Obligations.IncWrapsAndKeepsTheCarry : Prop :=
  ∀ (r : RegIx) (s : State),
    (∀ (J : JumpTop) (op : Byte), op.toNat = 0x60 + r.val → decode J op = some (.inc r)) ∧
    ∃ t, exec (.inc r) s = .next t ∧ t = { s with regs := t.regs } ∧
      (readReg t r).toNat = ((readReg s r).toNat + 1) % 16 ∧ (∀ q : RegIx, q ≠ r → readReg t q = readReg s q)

/-- R87: ADD sets cy and subtracts 16 where the sum exceeds 15, and otherwise does not write cy. -/
def Obligations.AddSetsCarryOnOverflowAndNeverClearsIt : Prop :=
  ∀ (r : RegIx) (s : State),
    (∀ (J : JumpTop) (op : Byte), op.toNat = 0x80 + r.val → decode J op = some (.add r)) ∧
    ∃ t, exec (.add r) s = .next t ∧ t = { s with acc := t.acc, cy := t.cy } ∧
      (s.acc.toNat + s.cy.toNat + (readReg s r).toNat > 15 →
        t.cy = 1 ∧ t.acc.toNat + 16 = s.acc.toNat + s.cy.toNat + (readReg s r).toNat) ∧
      (s.acc.toNat + s.cy.toNat + (readReg s r).toNat ≤ 15 →
        t.cy = s.cy ∧ t.acc.toNat = s.acc.toNat + s.cy.toNat + (readReg s r).toNat)

/-- R88: SUB adds the complements, and its closed form: the difference modulo 16, with cy set exactly where no borrow
occurs (byte value: log 9). -/
def Obligations.SubAddsTheComplements : Prop :=
  ∀ (r : RegIx) (s : State),
    (∀ (J : JumpTop) (op : Byte), op.toNat = 0x90 + r.val → decode J op = some (.sub r)) ∧
    ∃ t, exec (.sub r) s = .next t ∧ t = { s with acc := t.acc, cy := t.cy } ∧
      (s.acc.toNat + (15 - (readReg s r).toNat) + (1 - s.cy.toNat) ≤ 15 →
        t.cy = 0 ∧ t.acc.toNat = s.acc.toNat + (15 - (readReg s r).toNat) + (1 - s.cy.toNat)) ∧
      (s.acc.toNat + (15 - (readReg s r).toNat) + (1 - s.cy.toNat) ≥ 16 →
        t.cy = 1 ∧ t.acc.toNat + 16 = s.acc.toNat + (15 - (readReg s r).toNat) + (1 - s.cy.toNat)) ∧
      (t.acc.toNat : Int) = ((s.acc.toNat : Int) - (readReg s r).toNat - s.cy.toNat) % 16 ∧
      (t.cy = 1 ↔ s.acc.toNat ≥ (readReg s r).toNat + s.cy.toNat)

/-- R89: CLB clears the accumulator and cy (byte value: log 9). -/
def Obligations.ClbClearsAccAndCarry : Prop :=
  ∀ s : State,
    (∀ (J : JumpTop) (op : Byte), op.toNat = 0xF0 → decode J op = some .clb) ∧
    exec .clb s = .next { s with acc := 0, cy := 0 }

/-- R90: CLC clears cy only (byte value: log 9). -/
def Obligations.ClcClearsCarryOnly : Prop :=
  ∀ s : State,
    (∀ (J : JumpTop) (op : Byte), op.toNat = 0xF1 → decode J op = some .clc) ∧
    exec .clc s = .next { s with cy := 0 }

/-- R91: IAC adds one below 15 and raises RangeError at 15, with the accumulator and cy unchanged (byte value: log 9;
that cy is not written is derived by the spec, log 14; the fault log is left out here, log 7). -/
def Obligations.IacIncrementsOrRaisesAtFifteen : Prop :=
  ∀ s : State,
    (∀ (J : JumpTop) (op : Byte), op.toNat = 0xF2 → decode J op = some .iac) ∧
    (s.acc ≠ 15 → ∃ t, exec .iac s = .next t ∧ t = { s with acc := t.acc } ∧ t.acc.toNat = s.acc.toNat + 1) ∧
    (s.acc = 15 → ∃ f, exec .iac s = .fault f ∧ f.info = .rangeError (.cell .acc) 16 ∧
      f.after = { s with faultLog := f.after.faultLog })

/-- R92: DAC, with cy 1 for "no borrow" and 0 for "wrapped"; the result of a DAC of 0 is the parameter
`DAC_ZERO_RESULT`, whatever its value. -/
def Obligations.DacDecrementsWithInvertedBorrow : Prop :=
  ∀ s : State,
    (∀ (J : JumpTop) (op : Byte), op.toNat = 0xF8 → decode J op = some .dac) ∧
    (s.acc = 0 → exec .dac s = .next { s with acc := s.params.dacZeroResult, cy := 0 }) ∧
    (s.acc ≠ 0 → ∃ t, exec .dac s = .next t ∧ t = { s with acc := t.acc, cy := 1 } ∧
      t.acc.toNat + 1 = s.acc.toNat)

/-! ### Who reads and writes what -/

/-- R21: only ADD, SUB, CLB, CLC and DAC write cy; only ADD, SUB and a JCN with condition bit 1 set read it. Every other
instruction does the same whatever cy holds, and leaves it (for six of them this is the spec's derivation, log 14). -/
def Obligations.CarryIsReadAndWrittenOnlyAsListed : Prop :=
  ∀ (i : Instr) (s : State),
    ((∀ r, i ≠ .add r) → (∀ r, i ≠ .sub r) → i ≠ .clb → i ≠ .clc → i ≠ .dac →
      ∀ t, Leaves (exec i s) t → t.cy = s.cy) ∧
    ((∀ r, i ≠ .add r) → (∀ r, i ≠ .sub r) → (∀ c, i = .jcn c → c.getLsbD 1 = false) → ∀ x : Bit,
      exec i { s with cy := x } =
        if i = .clb ∨ i = .clc ∨ i = .dac then exec i s else onState (fun t => { t with cy := x }) (exec i s))

/-- R20: only ADD, SUB, LD, XCH, LDM, BBL, CLB, IAC and DAC write the accumulator; only a JCN with condition bit 2 set,
ADD, SUB, XCH, IAC and DAC read it. -/
def Obligations.AccIsReadAndWrittenOnlyAsListed : Prop :=
  ∀ (i : Instr) (s : State),
    ((∀ r, i ≠ .add r) → (∀ r, i ≠ .sub r) → (∀ r, i ≠ .ld r) → (∀ r, i ≠ .xch r) → (∀ d, i ≠ .ldm d) →
      (∀ d, i ≠ .bbl d) → i ≠ .clb → i ≠ .iac → i ≠ .dac → ∀ t, Leaves (exec i s) t → t.acc = s.acc) ∧
    ((∀ r, i ≠ .add r) → (∀ r, i ≠ .sub r) → (∀ r, i ≠ .xch r) → i ≠ .iac → i ≠ .dac →
      (∀ c, i = .jcn c → c.getLsbD 2 = false) → ∀ x : Nibble,
      exec i { s with acc := x } =
        if (∃ r, i = .ld r) ∨ (∃ d, i = .ldm d) ∨ (∃ d, i = .bbl d) ∨ i = .clb then exec i s
        else onState (fun t => { t with acc := x }) (exec i s))

/-- R19: a general register changes only under an INC or an XCH that names it, or a FIM of its pair. -/
def Obligations.RegistersChangeOnlyAsListed : Prop :=
  ∀ (i : Instr) (s t : State) (q : RegIx), Leaves (exec i s) t → readReg t q ≠ readReg s q →
    i = .inc q ∨ i = .xch q ∨ ∃ p : PairIx, i = .fim p ∧ q.val / 2 = p.val

/-- R24: JMS is the only writer of the slots, by push; JMS and BBL alone move the cursor. -/
def Obligations.StackIsUsedByJmsAndBblOnly : Prop :=
  ∀ (i : Instr) (s t : State), Leaves (exec i s) t →
    ((∀ a4, i ≠ .jms a4) → t.stack = s.stack) ∧
    ((∀ a4, i ≠ .jms a4) → (∀ d, i ≠ .bbl d) → t.sp = s.sp) ∧
    ∀ x : Vector Addr 3, (∀ a4, i ≠ .jms a4) → (∀ d, i ≠ .bbl d) →
      exec i { s with stack := x } = onState (fun u => { u with stack := x }) (exec i s)

/-- R37: no instruction writes the instruction store: every byte reads as before, whether the instruction completes or
raises, and so after a whole step. -/
def Obligations.NoInstructionWritesTheStore : Prop :=
  (∀ (i : Instr) (s t : State), Leaves (exec i s) t → SameMemory s t ∧ t.mem = s.mem) ∧
  (∀ s t : State, Leaves (step s) t → SameMemory s t ∧ t.mem = s.mem)

/-- R26, R27, R29: no step changes the test pin, the data pointer, or the parameters that fix the registry. -/
def Obligations.StepNeverChangesTheHostCells : Prop :=
  ∀ s t : State, Leaves (step s) t → SameHostCells s t

/-- R27: no instruction reads the data pointer: a step does the same whatever it holds (D5; log 4). -/
def Obligations.DataPointerIsNeverRead : Prop :=
  ∀ (s : State) (d : Nat), step { s with dp := d } = onState (fun t => { t with dp := d }) (step s)

/-- R26: only a JCN with condition bit 0 set reads the test pin, and no step changes it. -/
def Obligations.TestPinIsReadOnlyByJcnAndNeverWritten : Prop :=
  (∀ (i : Instr) (s : State) (x : Bit), (∀ c, i = .jcn c → c.getLsbD 0 = false) →
    exec i { s with test := x } = onState (fun t => { t with test := x }) (exec i s)) ∧
  (∀ s t : State, Leaves (step s) t → t.test = s.test)

/-! ### Construction, invariants and runs -/

/-- R33: what construction leaves, for any parameters, and that reset is construction under the defaults of R7 (logs 1 to
4); the values of sp, test and dp are the spec's inference (log 5). -/
def Obligations.ConstructionZeroesEveryCell : Prop :=
  ∀ P : Params,
    (State.construct P).acc = 0 ∧ (State.construct P).cy = 0 ∧ (∀ r : RegIx, readReg (State.construct P) r = 0) ∧
    (∀ p : PairIx, readPair (State.construct P) p = 0) ∧
    (State.construct P).pc = 0x000 ∧ (State.construct P).test = 0 ∧
    (∀ k : Fin 3, (State.construct P).stack[k.val] = 0x000) ∧ (State.construct P).sp = 0 ∧
    (State.construct P).dp = 0 ∧ (∀ a : Addr, memRead (State.construct P) a = 0x00) ∧
    (State.construct P).params = P ∧ State.reset = State.construct Params.default

/-- R13: the state right after construction meets the invariant `State.wf` (the store's form is the model's, log 21). -/
def Obligations.ConstructionIsWellFormed : Prop := ∀ P : Params, (State.construct P).wf = true

/-- R13, R28: whatever state meets the invariant (the store in canonical form within 4096 addresses, the data pointer
within its width), every state a step leaves meets it, after an error too (the store's form is the model's, log 21). -/
def Obligations.StepKeepsTheStateWellFormed : Prop :=
  ∀ s t : State, s.wf = true → Leaves (step s) t → t.wf = true

/-- R13, R31, R38, R100: any session of steps, accessor writes and image loads, errors and going on after them included,
keeps the invariant (logs 7, 21 and 22). -/
def Obligations.SessionKeepsTheStateWellFormed : Prop :=
  ∀ (moves : List HostMove) (s : State), s.wf = true → (hostSession moves s).wf = true

/-- R114: a run ends after n successful steps or at the first error: its final state, its error and the number of bytes
it returned agree with stepping the machine (D15; log 6). -/
def Obligations.RunEndsAfterNStepsOrAtTheFirstError : Prop :=
  ∀ (n : Nat) (s : State),
    (∀ t, runSteps n s = .next t →
      (hostRun n s).final = t ∧ (hostRun n s).error = none ∧ (hostRun n s).bytes.length = n) ∧
    (∀ f, runSteps n s = .fault f →
      (hostRun n s).final = f.after ∧ (hostRun n s).error = some f ∧ (hostRun n s).bytes.length < n) ∧
    (∀ r, runSteps n s ≠ .refused r)

/-- R114: a JUN to its own address leaves every cell unchanged; that such a loop is how a program ends is the spec's own
convention (D15; log 6). The premises lay the JUN out by its byte value (log 9) and its byte order (log 16). -/
def Obligations.JunToItselfChangesNothing : Prop :=
  ∀ (a4 : Nibble) (lo : Byte) (s : State), s.pc = a4 ++ lo →
    memRead s s.pc = 0x4#4 ++ a4 → memRead s (s.pc + 1) = lo →
    (a4 ≠ 15 ∨ s.params.jumpTop.jun = true) → (s.params.pcOverflow = .wrap ∨ s.pc.toNat < 4094) →
    step s = .next s
end

