-- ==== Sys2Proof/Laws/State.lean ====
section
/-! SUPPORT. One lemma per field per update of State (Machine/Ops.lean), so that no later proof unfolds an update. -/

namespace Sys2Proof.Machine.State

variable (s : State)

/-! ### setAcc -/

@[simp] theorem setAcc_acc (v : Nibble) : (s.setAcc v).acc = v := rfl
@[simp] theorem setAcc_cy (v : Nibble) : (s.setAcc v).cy = s.cy := rfl
@[simp] theorem setAcc_regs (v : Nibble) : (s.setAcc v).regs = s.regs := rfl
@[simp] theorem setAcc_pc (v : Nibble) : (s.setAcc v).pc = s.pc := rfl
@[simp] theorem setAcc_test (v : Nibble) : (s.setAcc v).test = s.test := rfl
@[simp] theorem setAcc_stack (v : Nibble) : (s.setAcc v).stack = s.stack := rfl
@[simp] theorem setAcc_sp (v : Nibble) : (s.setAcc v).sp = s.sp := rfl
@[simp] theorem setAcc_dp (v : Nibble) : (s.setAcc v).dp = s.dp := rfl
@[simp] theorem setAcc_mem (v : Nibble) : (s.setAcc v).mem = s.mem := rfl
@[simp] theorem setAcc_params (v : Nibble) : (s.setAcc v).params = s.params := rfl
@[simp] theorem setAcc_faultLog (v : Nibble) : (s.setAcc v).faultLog = s.faultLog := rfl

/-! ### setCy -/

@[simp] theorem setCy_acc (v : Bit) : (s.setCy v).acc = s.acc := rfl
@[simp] theorem setCy_cy (v : Bit) : (s.setCy v).cy = v := rfl
@[simp] theorem setCy_regs (v : Bit) : (s.setCy v).regs = s.regs := rfl
@[simp] theorem setCy_pc (v : Bit) : (s.setCy v).pc = s.pc := rfl
@[simp] theorem setCy_test (v : Bit) : (s.setCy v).test = s.test := rfl
@[simp] theorem setCy_stack (v : Bit) : (s.setCy v).stack = s.stack := rfl
@[simp] theorem setCy_sp (v : Bit) : (s.setCy v).sp = s.sp := rfl
@[simp] theorem setCy_dp (v : Bit) : (s.setCy v).dp = s.dp := rfl
@[simp] theorem setCy_mem (v : Bit) : (s.setCy v).mem = s.mem := rfl
@[simp] theorem setCy_params (v : Bit) : (s.setCy v).params = s.params := rfl
@[simp] theorem setCy_faultLog (v : Bit) : (s.setCy v).faultLog = s.faultLog := rfl

/-! ### setReg -/

@[simp] theorem setReg_acc (r : RegIx) (v : Nibble) : (s.setReg r v).acc = s.acc := rfl
@[simp] theorem setReg_cy (r : RegIx) (v : Nibble) : (s.setReg r v).cy = s.cy := rfl
@[simp] theorem setReg_regs (r : RegIx) (v : Nibble) : (s.setReg r v).regs = s.regs.set r.val v := rfl
@[simp] theorem setReg_pc (r : RegIx) (v : Nibble) : (s.setReg r v).pc = s.pc := rfl
@[simp] theorem setReg_test (r : RegIx) (v : Nibble) : (s.setReg r v).test = s.test := rfl
@[simp] theorem setReg_stack (r : RegIx) (v : Nibble) : (s.setReg r v).stack = s.stack := rfl
@[simp] theorem setReg_sp (r : RegIx) (v : Nibble) : (s.setReg r v).sp = s.sp := rfl
@[simp] theorem setReg_dp (r : RegIx) (v : Nibble) : (s.setReg r v).dp = s.dp := rfl
@[simp] theorem setReg_mem (r : RegIx) (v : Nibble) : (s.setReg r v).mem = s.mem := rfl
@[simp] theorem setReg_params (r : RegIx) (v : Nibble) : (s.setReg r v).params = s.params := rfl
@[simp] theorem setReg_faultLog (r : RegIx) (v : Nibble) : (s.setReg r v).faultLog = s.faultLog := rfl

/-! ### setPc -/

@[simp] theorem setPc_acc (v : Addr) : (s.setPc v).acc = s.acc := rfl
@[simp] theorem setPc_cy (v : Addr) : (s.setPc v).cy = s.cy := rfl
@[simp] theorem setPc_regs (v : Addr) : (s.setPc v).regs = s.regs := rfl
@[simp] theorem setPc_pc (v : Addr) : (s.setPc v).pc = v := rfl
@[simp] theorem setPc_test (v : Addr) : (s.setPc v).test = s.test := rfl
@[simp] theorem setPc_stack (v : Addr) : (s.setPc v).stack = s.stack := rfl
@[simp] theorem setPc_sp (v : Addr) : (s.setPc v).sp = s.sp := rfl
@[simp] theorem setPc_dp (v : Addr) : (s.setPc v).dp = s.dp := rfl
@[simp] theorem setPc_mem (v : Addr) : (s.setPc v).mem = s.mem := rfl
@[simp] theorem setPc_params (v : Addr) : (s.setPc v).params = s.params := rfl
@[simp] theorem setPc_faultLog (v : Addr) : (s.setPc v).faultLog = s.faultLog := rfl

/-! ### setTest -/

@[simp] theorem setTest_acc (v : Bit) : (s.setTest v).acc = s.acc := rfl
@[simp] theorem setTest_cy (v : Bit) : (s.setTest v).cy = s.cy := rfl
@[simp] theorem setTest_regs (v : Bit) : (s.setTest v).regs = s.regs := rfl
@[simp] theorem setTest_pc (v : Bit) : (s.setTest v).pc = s.pc := rfl
@[simp] theorem setTest_test (v : Bit) : (s.setTest v).test = v := rfl
@[simp] theorem setTest_stack (v : Bit) : (s.setTest v).stack = s.stack := rfl
@[simp] theorem setTest_sp (v : Bit) : (s.setTest v).sp = s.sp := rfl
@[simp] theorem setTest_dp (v : Bit) : (s.setTest v).dp = s.dp := rfl
@[simp] theorem setTest_mem (v : Bit) : (s.setTest v).mem = s.mem := rfl
@[simp] theorem setTest_params (v : Bit) : (s.setTest v).params = s.params := rfl
@[simp] theorem setTest_faultLog (v : Bit) : (s.setTest v).faultLog = s.faultLog := rfl

/-! ### setStackSlot -/

@[simp] theorem setStackSlot_acc (k : Fin 3) (v : Addr) : (s.setStackSlot k v).acc = s.acc := rfl
@[simp] theorem setStackSlot_cy (k : Fin 3) (v : Addr) : (s.setStackSlot k v).cy = s.cy := rfl
@[simp] theorem setStackSlot_regs (k : Fin 3) (v : Addr) : (s.setStackSlot k v).regs = s.regs := rfl
@[simp] theorem setStackSlot_pc (k : Fin 3) (v : Addr) : (s.setStackSlot k v).pc = s.pc := rfl
@[simp] theorem setStackSlot_test (k : Fin 3) (v : Addr) : (s.setStackSlot k v).test = s.test := rfl
@[simp] theorem setStackSlot_stack (k : Fin 3) (v : Addr) : (s.setStackSlot k v).stack = s.stack.set k.val v := rfl
@[simp] theorem setStackSlot_sp (k : Fin 3) (v : Addr) : (s.setStackSlot k v).sp = s.sp := rfl
@[simp] theorem setStackSlot_dp (k : Fin 3) (v : Addr) : (s.setStackSlot k v).dp = s.dp := rfl
@[simp] theorem setStackSlot_mem (k : Fin 3) (v : Addr) : (s.setStackSlot k v).mem = s.mem := rfl
@[simp] theorem setStackSlot_params (k : Fin 3) (v : Addr) : (s.setStackSlot k v).params = s.params := rfl
@[simp] theorem setStackSlot_faultLog (k : Fin 3) (v : Addr) : (s.setStackSlot k v).faultLog = s.faultLog := rfl

/-! ### setSp -/

@[simp] theorem setSp_acc (v : Fin 3) : (s.setSp v).acc = s.acc := rfl
@[simp] theorem setSp_cy (v : Fin 3) : (s.setSp v).cy = s.cy := rfl
@[simp] theorem setSp_regs (v : Fin 3) : (s.setSp v).regs = s.regs := rfl
@[simp] theorem setSp_pc (v : Fin 3) : (s.setSp v).pc = s.pc := rfl
@[simp] theorem setSp_test (v : Fin 3) : (s.setSp v).test = s.test := rfl
@[simp] theorem setSp_stack (v : Fin 3) : (s.setSp v).stack = s.stack := rfl
@[simp] theorem setSp_sp (v : Fin 3) : (s.setSp v).sp = v := rfl
@[simp] theorem setSp_dp (v : Fin 3) : (s.setSp v).dp = s.dp := rfl
@[simp] theorem setSp_mem (v : Fin 3) : (s.setSp v).mem = s.mem := rfl
@[simp] theorem setSp_params (v : Fin 3) : (s.setSp v).params = s.params := rfl
@[simp] theorem setSp_faultLog (v : Fin 3) : (s.setSp v).faultLog = s.faultLog := rfl

/-! ### setDp -/

@[simp] theorem setDp_acc (v : Nat) : (s.setDp v).acc = s.acc := rfl
@[simp] theorem setDp_cy (v : Nat) : (s.setDp v).cy = s.cy := rfl
@[simp] theorem setDp_regs (v : Nat) : (s.setDp v).regs = s.regs := rfl
@[simp] theorem setDp_pc (v : Nat) : (s.setDp v).pc = s.pc := rfl
@[simp] theorem setDp_test (v : Nat) : (s.setDp v).test = s.test := rfl
@[simp] theorem setDp_stack (v : Nat) : (s.setDp v).stack = s.stack := rfl
@[simp] theorem setDp_sp (v : Nat) : (s.setDp v).sp = s.sp := rfl
@[simp] theorem setDp_dp (v : Nat) : (s.setDp v).dp = v := rfl
@[simp] theorem setDp_mem (v : Nat) : (s.setDp v).mem = s.mem := rfl
@[simp] theorem setDp_params (v : Nat) : (s.setDp v).params = s.params := rfl
@[simp] theorem setDp_faultLog (v : Nat) : (s.setDp v).faultLog = s.faultLog := rfl

/-! ### setMem -/

@[simp] theorem setMem_acc (m : Memory) : (s.setMem m).acc = s.acc := rfl
@[simp] theorem setMem_cy (m : Memory) : (s.setMem m).cy = s.cy := rfl
@[simp] theorem setMem_regs (m : Memory) : (s.setMem m).regs = s.regs := rfl
@[simp] theorem setMem_pc (m : Memory) : (s.setMem m).pc = s.pc := rfl
@[simp] theorem setMem_test (m : Memory) : (s.setMem m).test = s.test := rfl
@[simp] theorem setMem_stack (m : Memory) : (s.setMem m).stack = s.stack := rfl
@[simp] theorem setMem_sp (m : Memory) : (s.setMem m).sp = s.sp := rfl
@[simp] theorem setMem_dp (m : Memory) : (s.setMem m).dp = s.dp := rfl
@[simp] theorem setMem_mem (m : Memory) : (s.setMem m).mem = m := rfl
@[simp] theorem setMem_params (m : Memory) : (s.setMem m).params = s.params := rfl
@[simp] theorem setMem_faultLog (m : Memory) : (s.setMem m).faultLog = s.faultLog := rfl

/-! ### logError -/

@[simp] theorem logError_acc (e : ErrorInfo) : (s.logError e).acc = s.acc := rfl
@[simp] theorem logError_cy (e : ErrorInfo) : (s.logError e).cy = s.cy := rfl
@[simp] theorem logError_regs (e : ErrorInfo) : (s.logError e).regs = s.regs := rfl
@[simp] theorem logError_pc (e : ErrorInfo) : (s.logError e).pc = s.pc := rfl
@[simp] theorem logError_test (e : ErrorInfo) : (s.logError e).test = s.test := rfl
@[simp] theorem logError_stack (e : ErrorInfo) : (s.logError e).stack = s.stack := rfl
@[simp] theorem logError_sp (e : ErrorInfo) : (s.logError e).sp = s.sp := rfl
@[simp] theorem logError_dp (e : ErrorInfo) : (s.logError e).dp = s.dp := rfl
@[simp] theorem logError_mem (e : ErrorInfo) : (s.logError e).mem = s.mem := rfl
@[simp] theorem logError_params (e : ErrorInfo) : (s.logError e).params = s.params := rfl
@[simp] theorem logError_faultLog (e : ErrorInfo) : (s.logError e).faultLog = s.faultLog ++ [e] := rfl

end Sys2Proof.Machine.State
end

