-- ==== Sys2Proof/Laws/Memory.lean ====
section
/-! SUPPORT. The instruction store: what a write makes a later read give, and that every operation over it keeps the
canonical form. -/

namespace Sys2Proof.Machine

@[simp] theorem memLookup_nil (x : Nat) : memLookup [] x = Memory.unlisted := rfl

/-- An address below every listed one reads as unlisted. -/
theorem memLookup_below {m : Memory} {lo x : Nat} (h : Memory.wfFrom lo m = true) (hx : x < lo) :
    memLookup m x = Memory.unlisted := by
  induction m generalizing lo with
  | nil => rfl
  | cons c rest ih =>
    obtain ⟨a, b⟩ := c
    simp only [Memory.wfFrom, Bool.and_eq_true, decide_eq_true_eq] at h
    obtain ⟨⟨⟨hlo, -⟩, -⟩, hrest⟩ := h
    have hne : a ≠ x := by omega
    simp only [memLookup, hne, if_false]
    exact ih hrest (by omega)

/-- A smaller lower bound is weaker. -/
theorem wfFrom_mono {m : Memory} {lo lo' : Nat} (h : Memory.wfFrom lo m = true) (hle : lo' ≤ lo) :
    Memory.wfFrom lo' m = true := by
  cases m with
  | nil => rfl
  | cons c rest =>
    obtain ⟨a, b⟩ := c
    simp only [Memory.wfFrom, Bool.and_eq_true, decide_eq_true_eq] at h ⊢
    exact ⟨⟨⟨by omega, h.1.1.2⟩, h.1.2⟩, h.2⟩

/-- Storing a byte keeps the canonical form, from any lower bound that the address meets. -/
theorem wfFrom_memInsert {m : Memory} {lo x : Nat} (v : Byte) (h : Memory.wfFrom lo m = true) (hlo : lo ≤ x)
    (hx : x < 4096) : Memory.wfFrom lo (memInsert m x v) = true := by
  induction m generalizing lo with
  | nil =>
    by_cases hv : v = Memory.unlisted
    · simp [memInsert, hv, Memory.wfFrom]
    · simp [memInsert, hv, Memory.wfFrom, hlo, hx]
  | cons c rest ih =>
    obtain ⟨a, b⟩ := c
    have hw := h
    simp only [Memory.wfFrom, Bool.and_eq_true, decide_eq_true_eq] at h
    obtain ⟨⟨⟨hla, ha⟩, hb⟩, hrest⟩ := h
    rcases Nat.lt_trichotomy x a with hlt | heq | hgt
    · by_cases hv : v = Memory.unlisted
      · simpa [memInsert, hlt, hv] using hw
      · simp only [memInsert, hlt, hv, if_true, if_false, Memory.wfFrom, Bool.and_eq_true, decide_eq_true_eq]
        exact ⟨⟨⟨hlo, hx⟩, by simpa using hv⟩, ⟨⟨⟨by omega, ha⟩, hb⟩, hrest⟩⟩
    · subst heq
      by_cases hv : v = Memory.unlisted
      · simpa [memInsert, hv] using wfFrom_mono hrest (by omega)
      · simp only [memInsert, Nat.lt_irrefl, hv, if_true, if_false, Memory.wfFrom, Bool.and_eq_true, decide_eq_true_eq]
        exact ⟨⟨⟨hlo, hx⟩, by simpa using hv⟩, hrest⟩
    · have h1 : ¬x < a := by omega
      have h2 : x ≠ a := by omega
      simp only [memInsert, h1, h2, if_false, Memory.wfFrom, Bool.and_eq_true, decide_eq_true_eq]
      exact ⟨⟨⟨hla, ha⟩, hb⟩, ih hrest (by omega)⟩

/-- A read after a write to the same address gives the byte written. -/
theorem memLookup_memInsert_self {m : Memory} {lo : Nat} (h : Memory.wfFrom lo m = true) (x : Nat) (v : Byte) :
    memLookup (memInsert m x v) x = v := by
  induction m generalizing lo with
  | nil => by_cases hv : v = Memory.unlisted <;> simp [memInsert, hv, memLookup]
  | cons c rest ih =>
    obtain ⟨a, b⟩ := c
    have hw := h
    simp only [Memory.wfFrom, Bool.and_eq_true, decide_eq_true_eq] at h
    rcases Nat.lt_trichotomy x a with hlt | heq | hgt
    · by_cases hv : v = Memory.unlisted
      · have hne : a ≠ x := by omega
        simp [memInsert, hlt, hv, memLookup, hne, memLookup_below h.2 (by omega : x < a + 1)]
      · simp [memInsert, hlt, hv, memLookup]
    · subst heq
      by_cases hv : v = Memory.unlisted
      · simp [memInsert, hv, memLookup_below h.2 (by omega : x < x + 1)]
      · simp [memInsert, hv, memLookup]
    · have h1 : ¬x < a := by omega
      have h2 : x ≠ a := by omega
      have h3 : a ≠ x := by omega
      simp [memInsert, h1, h2, h3, memLookup, ih h.2]

/-- A write leaves every other address alone, whatever the form of the store. -/
theorem memLookup_memInsert_other (m : Memory) {x y : Nat} (v : Byte) (hxy : y ≠ x) :
    memLookup (memInsert m x v) y = memLookup m y := by
  have hyx : x ≠ y := fun e => hxy e.symm
  induction m with
  | nil => by_cases hv : v = Memory.unlisted <;> simp [memInsert, hv, memLookup, hyx]
  | cons c rest ih =>
    obtain ⟨a, b⟩ := c
    rcases Nat.lt_trichotomy x a with hlt | heq | hgt
    · by_cases hv : v = Memory.unlisted <;> simp [memInsert, hlt, hv, memLookup, hyx]
    · subst heq
      by_cases hv : v = Memory.unlisted <;> simp [memInsert, hv, memLookup, hyx]
    · have h1 : ¬x < a := by omega
      have h2 : x ≠ a := by omega
      simp [memInsert, h1, h2, memLookup, ih]

/-- Storing a byte at an address of the store keeps the canonical form. -/
theorem wf_memInsert {m : Memory} {x : Nat} (v : Byte) (h : m.wf = true) (hx : x < 4096) :
    (memInsert m x v).wf = true := wfFrom_memInsert v h (Nat.zero_le x) hx

/-- Storing an image that ends inside the store keeps the canonical form. -/
theorem wf_memInsertBytes {m : Memory} {start : Nat} {bytes : List Byte} (h : m.wf = true)
    (hx : start + bytes.length ≤ 4096) : (memInsertBytes m start bytes).wf = true := by
  induction bytes generalizing m start with
  | nil => exact h
  | cons b rest ih =>
    simp only [List.length_cons] at hx
    exact ih (wf_memInsert b h (by omega)) (by omega)

/-- Storing an image leaves every address outside it alone. -/
theorem memLookup_memInsertBytes_outside (m : Memory) {start x : Nat} (bytes : List Byte)
    (hx : x < start ∨ start + bytes.length ≤ x) : memLookup (memInsertBytes m start bytes) x = memLookup m x := by
  induction bytes generalizing m start with
  | nil => rfl
  | cons b rest ih =>
    simp only [List.length_cons] at hx
    rw [memInsertBytes, ih _ (by omega), memLookup_memInsert_other _ _ (by omega)]

/-- Placing an instruction for the next fetch keeps the canonical form. -/
theorem placeFetchWord_wf {s : State} (nbits w : Nat) (h : s.mem.wf = true) :
    (placeFetchWord s nbits w).mem.wf = true :=
  wf_memInsert _ (wf_memInsert _ h (s.pc + 1).isLt) s.pc.isLt

end Sys2Proof.Machine
end

