-- ==== Sys2Proof/Laws/Ops.lean ====
section
/-! SUPPORT. One lemma per shared operation that says all it can do. -/

namespace Sys2Proof.Machine

open Sys2Proof.Safety

/-! ### Outcomes -/

@[simp] theorem andThen_next (t : State) (k : State → Result) : andThen (.next t) k = k t := rfl

@[simp] theorem andThen_fault (f : Fault) (k : State → Result) : andThen (.fault f) k = .fault f := rfl

@[simp] theorem andThen_refused (r : Refusal) (k : State → Result) : andThen (.refused r) k = .refused r := rfl

@[simp] theorem andThen_raise (e : ErrorInfo) (s : State) (k : State → Result) : andThen (raise e s) k = raise e s := rfl

@[simp] theorem faultOf_after (e : ErrorInfo) (t : State) : (faultOf e t).after = t := by cases e <;> rfl

@[simp] theorem faultOf_info (e : ErrorInfo) (t : State) : (faultOf e t).info = e := by cases e <;> rfl

theorem raise_ne_next (e : ErrorInfo) (s t : State) : raise e s ≠ .next t := nofun

/-- The fault of a raise carries its error and leaves the state with the error logged, and nothing else. -/
theorem raise_fault {e : ErrorInfo} {s : State} {f : Fault} (h : raise e s = .fault f) :
    f.info = e ∧ f.after = s.logError e := by
  cases h
  simp

/-- One step of a host run. -/
theorem host_run_succ (M : Host.Core) (n : Nat) (s : M.State) :
    M.run (n + 1) s = match M.step s with
      | .next t => M.run n t
      | .fault f => .fault f
      | .refused r => .refused r := rfl

/-- The host's run of the core is `runSteps`. -/
theorem core_run_eq (n : Nat) (s : State) : Host.Core.run Sys2Proof.core n s = runSteps n s := by
  induction n generalizing s with
  | zero => rfl
  | succ n ih =>
    refine (host_run_succ Sys2Proof.core n s).trans ?_
    rw [runSteps]
    cases h : step s with
    | next t => rw [show Host.Core.step Sys2Proof.core s = .next t from h]; exact ih t
    | fault f => rw [show Host.Core.step Sys2Proof.core s = .fault f from h]; rfl
    | refused r => rw [show Host.Core.step Sys2Proof.core s = .refused r from h]; rfl

/-! ### The bounded cell -/

/-- A `set` in range gives the value. -/
theorem cellSet_ok (c : CellName) (w : Nat) {n : Nat} (h : n < 2 ^ w) : cellSet c w n = .ok (BitVec.ofNat w n) := by
  have h1 : (n : Int) ≤ 2 ^ w - 1 := by
    have : ((n : Nat) : Int) < ((2 ^ w : Nat) : Int) := Int.ofNat_lt.mpr h
    push_cast at this
    omega
  simp only [cellSet, Int.natCast_nonneg, h1, and_self, if_true, BitVec.ofInt_natCast]

/-- A `set` out of range is the RangeError that names the cell and the value. -/
theorem cellSet_error (c : CellName) (w : Nat) {v : Int} (h : ¬(0 ≤ v ∧ v ≤ 2 ^ w - 1)) :
    cellSet c w v = .error (.rangeError (.cell c) v) := if_neg h

/-! ### The program counter and the operand fetch -/

/-- Incrementing a bounded cell below its maximum. -/
theorem cellIncrement_ok {w : Nat} (c : CellName) {v : BitVec w} (h : v.toNat + 1 < 2 ^ w) :
    cellIncrement c v = .ok (v + 1) := by
  have hc := cellSet_ok c w h
  push_cast at hc
  have hv : BitVec.ofNat w (v.toNat + 1) = v + 1 := by
    apply BitVec.eq_of_toNat_eq
    simp
  rw [cellIncrement, hc, hv]

/-- Incrementing a bounded cell at its maximum. -/
theorem cellIncrement_error {w : Nat} (c : CellName) {v : BitVec w} (h : v.toNat + 1 = 2 ^ w) :
    cellIncrement c v = .error (.rangeError (.cell c) (2 ^ w)) := by
  have hv : ((v.toNat : Int) + 1) = 2 ^ w := by exact_mod_cast h
  rw [cellIncrement, hv]
  exact cellSet_error c w (by omega)

/-- All that `advance_pc()` can do (40_engine.md R65). -/
theorem advancePc_cases (s : State) :
    (CanAdvance s ∧ advancePc s = .next (s.setPc (s.pc + 1))) ∨
    (s.params.pcOverflow = .fault ∧ s.pc = 4095 ∧ advancePc s = raise (.rangeError (.cell .pc) 4096) s) := by
  cases hp : s.params.pcOverflow with
  | wrap => exact .inl ⟨.inl hp, by rw [advancePc, hp]⟩
  | fault =>
    by_cases h : s.pc = 4095
    · exact .inr ⟨rfl, h, by simp only [advancePc, hp, h, if_true]⟩
    · exact .inl ⟨.inr h, by simp only [advancePc, hp, h, if_false]⟩

/-- The advance where it raises nothing. -/
theorem advancePc_next {s : State} (h : CanAdvance s) : advancePc s = .next (s.setPc (s.pc + 1)) := by
  obtain ⟨-, he⟩ | ⟨hf, hpc, -⟩ := advancePc_cases s
  · exact he
  · rcases h with hw | hn
    · rw [hf] at hw; cases hw
    · exact absurd hpc hn

/-- The advance where it raises. -/
theorem advancePc_raise {s : State} (hf : s.params.pcOverflow = .fault) (hpc : s.pc = 4095) :
    advancePc s = raise (.rangeError (.cell .pc) 4096) s := by
  obtain ⟨h, -⟩ | ⟨-, -, he⟩ := advancePc_cases s
  · rcases h with hw | hn
    · rw [hf] at hw; cases hw
    · exact absurd hpc hn
  · exact he

/-- All that a fetch can do (40_engine.md R64, R68): the byte at the counter goes to the rest of the handler at the
advanced state, or the advance raises. -/
theorem fetch8_cases (s : State) (k : Byte → State → Result) :
    (CanAdvance s ∧ fetch8 s k = k (memRead s s.pc) (s.setPc (s.pc + 1))) ∨
    (s.params.pcOverflow = .fault ∧ s.pc = 4095 ∧ fetch8 s k = raise (.rangeError (.cell .pc) 4096) s) := by
  obtain ⟨h, he⟩ | ⟨hf, hpc, he⟩ := advancePc_cases s
  · exact .inl ⟨h, by rw [fetch8, he, andThen_next]⟩
  · exact .inr ⟨hf, hpc, by rw [fetch8, he, andThen_raise]⟩

/-- A fetch where the advance raises nothing. -/
theorem fetch8_next {s : State} (h : CanAdvance s) (k : Byte → State → Result) :
    fetch8 s k = k (memRead s s.pc) (s.setPc (s.pc + 1)) := by rw [fetch8, advancePc_next h, andThen_next]

/-- A fetch where the advance raises. -/
theorem fetch8_raise {s : State} (hf : s.params.pcOverflow = .fault) (hpc : s.pc = 4095) (k : Byte → State → Result) :
    fetch8 s k = raise (.rangeError (.cell .pc) 4096) s := by rw [fetch8, advancePc_raise hf hpc, andThen_raise]

/-! ### Registers and pairs -/

@[simp] theorem readReg_setReg_self (s : State) (r : RegIx) (v : Nibble) : readReg (s.setReg r v) r = v := by
  simp [readReg]

theorem readReg_setReg_other (s : State) {r q : RegIx} (v : Nibble) (h : q ≠ r) :
    readReg (s.setReg r v) q = readReg s q := by
  have hne : r.val ≠ q.val := fun e => h (Fin.ext e.symm)
  simp [readReg, hne]

/-! ### Host calls -/

/-- All that the result of a host write can be (10_state.md R31). -/
theorem hostResult_cases (s : State) (x : Except ErrorInfo State) :
    (∃ t, x = .ok t ∧ hostResult s x = .next t) ∨ ∃ e, x = .error e ∧ hostResult s x = raise e s := by
  cases x with
  | ok t => exact .inl ⟨t, rfl, rfl⟩
  | error e => exact .inr ⟨e, rfl, rfl⟩

/-- All that an image load can do (20_memory.md R38). -/
theorem loadImage_cases (start : Int) (bytes : List Byte) (s : State) :
    (imageFits start bytes = true ∧
      loadImage start bytes s = .next (s.setMem (memInsertBytes s.mem start.toNat bytes))) ∨
    (imageFits start bytes = false ∧ ∃ v, loadImage start bytes s = raise (.rangeError .store v) s) := by
  by_cases h1 : start < 0 ∨ start > 4095
  · exact .inr ⟨by simp only [imageFits, decide_eq_false_iff_not]; omega, start, if_pos h1⟩
  · by_cases h2 : bytes.length > 0 ∧ start + bytes.length - 1 > 4095
    · exact .inr ⟨by simp only [imageFits, decide_eq_false_iff_not]; omega, _, by rw [loadImage, if_neg h1, if_pos h2]⟩
    · exact .inl ⟨by simp only [imageFits, decide_eq_true_eq]; omega, by rw [loadImage, if_neg h1, if_neg h2]⟩

/-- Where a host write raises, the error it raises is the RangeError of `hostSet`. -/
theorem hostWrite_cases (c : CellName) (v : HostValue) (s : State) :
    (∃ n t, v = .int n ∧ hostSet c n s = .ok t ∧ hostWrite c v s = .next t) ∨
    (∃ n e, v = .int n ∧ hostSet c n s = .error e ∧ hostWrite c v s = raise e s) ∨
    ∃ x, v = .nonIntegral x ∧ hostWrite c v s = .refused (.invalidTypeError c x) := by
  cases v with
  | nonIntegral x => exact .inr (.inr ⟨x, rfl, rfl⟩)
  | int n =>
    obtain ⟨t, hx, hr⟩ | ⟨e, hx, hr⟩ := hostResult_cases s (hostSet c n s)
    · exact .inl ⟨n, t, rfl, hx, hr⟩
    · exact .inr (.inl ⟨n, e, rfl, hx, hr⟩)

/-! ### Where a piece of state is not read -/

@[simp] theorem memRead_setPc (s : State) (v a : Addr) : memRead (s.setPc v) a = memRead s a := rfl

@[simp] theorem readReg_setPc (s : State) (v : Addr) (r : RegIx) : readReg (s.setPc v) r = readReg s r := rfl

@[simp] theorem jcnCond_setPc (init : Bool) (c : Nibble) (s : State) (v : Addr) :
    jcnCond init c (s.setPc v) = jcnCond init c s := rfl

end Sys2Proof.Machine
end

