-- ==== Sys2Proof/Laws/PerInstr.lean ====
section
/-! SUPPORT. The family EncodingRow, one lemma per instruction: its opcode byte lies in its row of
spec/opcode_table.json, read there as `op & mask = match`. -/

namespace Sys2Proof.Laws.EncodingRow

/-- The `mask` of the instruction's row. -/
def mask : Instr → Byte
  | .nop => 0xFF
  | .jcn _ => 0xF0
  | .fim _ => 0xF1
  | .jin _ => 0xF1
  | .jun _ => 0xF0
  | .jms _ => 0xF0
  | .inc _ => 0xF0
  | .add _ => 0xF0
  | .sub _ => 0xF0
  | .ld _ => 0xF0
  | .xch _ => 0xF0
  | .bbl _ => 0xF0
  | .ldm _ => 0xF0
  | .clb => 0xFF
  | .clc => 0xFF
  | .iac => 0xFF
  | .dac => 0xFF

/-- The `match` of the instruction's row. -/
def rowMatch : Instr → Byte
  | .nop => 0x00
  | .jcn _ => 0x10
  | .fim _ => 0x20
  | .jin _ => 0x31
  | .jun _ => 0x40
  | .jms _ => 0x50
  | .inc _ => 0x60
  | .add _ => 0x80
  | .sub _ => 0x90
  | .ld _ => 0xA0
  | .xch _ => 0xB0
  | .bbl _ => 0xC0
  | .ldm _ => 0xD0
  | .clb => 0xF0
  | .clc => 0xF1
  | .iac => 0xF2
  | .dac => 0xF8

/-- The opcode byte lies in the instruction's row. -/
def Statement (i : Instr) : Prop := encode i &&& mask i = rowMatch i

theorem nop : Statement .nop := by unfold Statement; decide
theorem jcn (c : Nibble) : Statement (.jcn c) := by revert c; unfold Statement; decide
theorem fim (p : PairIx) : Statement (.fim p) := by revert p; unfold Statement; decide
theorem jin (p : PairIx) : Statement (.jin p) := by revert p; unfold Statement; decide
theorem jun (a4 : Nibble) : Statement (.jun a4) := by revert a4; unfold Statement; decide
theorem jms (a4 : Nibble) : Statement (.jms a4) := by revert a4; unfold Statement; decide
theorem inc (r : RegIx) : Statement (.inc r) := by revert r; unfold Statement; decide
theorem add (r : RegIx) : Statement (.add r) := by revert r; unfold Statement; decide
theorem sub (r : RegIx) : Statement (.sub r) := by revert r; unfold Statement; decide
theorem ld (r : RegIx) : Statement (.ld r) := by revert r; unfold Statement; decide
theorem xch (r : RegIx) : Statement (.xch r) := by revert r; unfold Statement; decide
theorem bbl (d : Nibble) : Statement (.bbl d) := by revert d; unfold Statement; decide
theorem ldm (d : Nibble) : Statement (.ldm d) := by revert d; unfold Statement; decide
theorem clb : Statement .clb := by unfold Statement; decide
theorem clc : Statement .clc := by unfold Statement; decide
theorem iac : Statement .iac := by unfold Statement; decide
theorem dac : Statement .dac := by unfold Statement; decide

end Sys2Proof.Laws.EncodingRow
end

