-- ==== Sys2Proof/Tests/Slice0.lean ====
section
/-! SUPPORT. Tests of the model, their expected results taken from spec/ (the vectors of 95_test_vectors.md by their ids,
the encodings of 30_encoding.md R51 and R61), and one witness for each statement that has hypotheses. -/

namespace Sys2Proof.Tests

open Sys2Proof Sys2Proof.Machine Sys2Proof.Safety

/-! ### Helpers -/

/-- The construction state with a program at `pc` (not across the top of the store). -/
def prog (pc : Addr) (bytes : List Byte) : State :=
  { State.reset with pc := pc, mem := memInsertBytes [] pc.toNat bytes }

/-- The same machine under `PC_OVERFLOW = fault`. -/
def faulting (s : State) : State := { s with params := { s.params with pcOverflow := .fault } }

/-- The same machine with every top jump encoding registered. -/
def allTops (s : State) : State :=
  { s with params := { s.params with jumpTop := { jcn := true, jun := true, jms := true } } }

/-- A view of a next state. -/
def nextOf {α : Type} (o : Result) (f : State → α) : Option α :=
  match o with
  | .next t => some (f t)
  | .fault _ => none
  | .refused _ => none

/-- The error of a fault, with a view of the state it leaves. -/
def errorOf {α : Type} (o : Result) (f : State → α) : Option (ErrorInfo × α) :=
  match o with
  | .next _ => none
  | .fault e => some (e.info, f e.after)
  | .refused _ => none

/-! ### WellFormed: an ill-formed term for each check -/

theorem smoke_jcn_top_refused : Instr.wellFormed Params.default.jumpTop (.jcn 15) = false := by decide
theorem smoke_jun_top_refused : Instr.wellFormed Params.default.jumpTop (.jun 15) = false := by decide
theorem smoke_jms_top_refused : Instr.wellFormed Params.default.jumpTop (.jms 15) = false := by decide
theorem smoke_tops_accepted_where_registered :
    Instr.wellFormed { jcn := true, jun := false, jms := false } (.jcn 15) = true ∧
    Instr.wellFormed { jcn := false, jun := true, jms := false } (.jun 15) = true ∧
    Instr.wellFormed { jcn := false, jun := false, jms := true } (.jms 15) = true := by decide

/-! ### Decoding: a word of every constructor, bit by bit from R51 and R56 -/

theorem test_decode_nop : decodeTableWord 8 0b00000000 = some .nop := by decide
theorem test_decode_jcn : decodeTableWord 16 0b0010001100011100 = some (.jcn 0b1100) := by decide
theorem test_decode_fim : decodeTableWord 16 0b1010101100101110 = some (.fim 7) := by decide
theorem test_decode_jin : decodeTableWord 8 0b00110111 = some (.jin 3) := by decide
theorem test_decode_jun : decodeTableWord 16 0b0010001101000001 = some (.jun 0b0001) := by decide
theorem test_decode_jms : decodeTableWord 16 0b0010000101010011 = some (.jms 0b0011) := by decide
theorem test_decode_inc : decodeTableWord 8 0b01100101 = some (.inc 5) := by decide
theorem test_decode_add : decodeTableWord 8 0b10001110 = some (.add 14) := by decide
theorem test_decode_sub : decodeTableWord 8 0b10010010 = some (.sub 2) := by decide
theorem test_decode_ld : decodeTableWord 8 0b10100011 = some (.ld 3) := by decide
theorem test_decode_xch : decodeTableWord 8 0b10110010 = some (.xch 2) := by decide
theorem test_decode_bbl : decodeTableWord 8 0b11000111 = some (.bbl 0b0111) := by decide
theorem test_decode_ldm : decodeTableWord 8 0b11011111 = some (.ldm 0b1111) := by decide
theorem test_decode_clb : decodeTableWord 8 0b11110000 = some .clb := by decide
theorem test_decode_clc : decodeTableWord 8 0b11110001 = some .clc := by decide
theorem test_decode_iac : decodeTableWord 8 0b11110010 = some .iac := by decide
theorem test_decode_dac : decodeTableWord 8 0b11111000 = some .dac := by decide

/-- R59: bytes the 4004 uses for ISZ, FIN, SRC and the groups of 0xE and 0xF that this core leaves out. -/
theorem test_decode_unregistered :
    decodeTableWord 8 0x7A = none ∧ decodeTableWord 8 0x32 = none ∧ decodeTableWord 8 0x25 = none ∧
    decodeTableWord 8 0xE0 = none ∧ decodeTableWord 8 0xF3 = none ∧ decodeTableWord 8 0xFF = none ∧
    decodeTableWord 8 0x1F = none := by decide

/-- Every rejection of the byte decoder, by name. -/
theorem test_decode_rejects_by_name :
    decodeBytes Params.default.jumpTop [] = .error .noBytes ∧
    decodeBytes Params.default.jumpTop [0x01] = .error (.unregistered 0x01) ∧
    decodeBytes Params.default.jumpTop [0x41] = .error (.operandMissing 0x41) := by decide

/-- `JUN 0x123` of R61's syntax table. -/
theorem test_encode_jun : encodeBytes (.jun 1) 0x23 = [0x41, 0x23] := by decide

/-! ### The engine -/

/-- G1, G2. -/
theorem test_nop_at_the_top :
    nextOf (step { State.reset with pc := 0xFFF }) (·.pc) = some 0x000 ∧
    errorOf (step (faulting { State.reset with pc := 0xFFF })) (·.pc) =
      some (.rangeError (.cell .pc) 4096, 0xFFF) := by decide

/-- G3, G4: UnknownOpcode leaves the counter past the offending byte only. -/
theorem test_unknown_opcode :
    errorOf (step (prog 0xFFF [0xFF])) (·.pc) = some (.unknownOpcode 0xFF 0xFFF, 0x000) ∧
    errorOf (step (prog 0x200 [0x4F, 0x12])) (·.pc) = some (.unknownOpcode 0x4F 0x200, 0x201) := by decide

/-- G6: RangeError in the operand advance. -/
theorem test_operand_advance_faults :
    errorOf (step (faulting (prog 0xFFE [0x41, 0x00]))) (·.pc) = some (.rangeError (.cell .pc) 4096, 0xFFF) := by decide

/-- P6 steps 3 and 5: the fault log keeps both errors across a resumed run. -/
theorem test_fault_log_across_resume :
    (hostSession [.step, .step, .step, .step, .step] (prog 0x000 [0xDE, 0xF2, 0xF2, 0xF8, 0x4F])).faultLog =
      [.rangeError (.cell .acc) 16, .unknownOpcode 0x4F 0x004] := by decide

/-- `withFetchWord` places the word where the next step fetches. -/
theorem test_fetch_word_runs :
    nextOf (step (State.reset.withFetchWord 16 0x2341)) (·.pc) = some 0x123 := by decide

/-! ### The instructions -/

/-- E3 (the page of the address after the instruction) and J4, J6 (a later bit overwrites an earlier one). -/
theorem test_jcn :
    nextOf (step { prog 0x0FE [0x1C, 0x06] with acc := 1 }) (·.pc) = some 0x106 ∧
    nextOf (step { prog 0x100 [0x13, 0x40] with test := 0, cy := 0 }) (·.pc) = some 0x102 ∧
    nextOf (step { prog 0x100 [0x16, 0x40] with acc := 5, cy := 1 }) (·.pc) = some 0x102 := by decide

/-- J9, J10: masks 0 and 8 under both values of `JCN_INIT`. -/
theorem test_jcn_init_both_ways :
    nextOf (execJcnWith false 0x0 { prog 0x100 [0x10, 0x40] with pc := 0x101 }) (·.pc) = some 0x102 ∧
    nextOf (execJcnWith true 0x0 { prog 0x100 [0x10, 0x40] with pc := 0x101 }) (·.pc) = some 0x140 ∧
    nextOf (execJcnWith false 0x8 { prog 0x100 [0x18, 0x40] with pc := 0x101 }) (·.pc) = some 0x140 ∧
    nextOf (execJcnWith true 0x8 { prog 0x100 [0x18, 0x40] with pc := 0x101 }) (·.pc) = some 0x102 := by decide

/-- T3: the operand byte lies across the top of the store. -/
theorem test_fim :
    nextOf (step { State.reset with pc := 0xFFF, mem := [(0, 0xC3), (4095, 0x24)] })
      (fun t => (readReg t 4, readReg t 5, t.pc)) = some (0xC, 0x3, 0x001) := by decide

/-- J15, J16. -/
theorem test_jin :
    nextOf (step ((prog 0x7FF [0x37]).setReg 6 9 |>.setReg 7 0xA)) (·.pc) = some 0x89A ∧
    nextOf (step ((prog 0xFFF [0x37]).setReg 6 9 |>.setReg 7 0xA)) (·.pc) = some 0x09A := by decide

/-- J17, G5. -/
theorem test_jun :
    nextOf (step (prog 0x200 [0x4E, 0xFF])) (·.pc) = some 0xEFF ∧
    nextOf (step (allTops (prog 0x200 [0x4F, 0x12]))) (·.pc) = some 0xF12 := by decide

/-- J20: the pushed address wraps and so does the cursor. -/
theorem test_jms :
    nextOf (step { prog 0xFFE [0x53, 0x21] with sp := 2 }) (fun t => (t.pc, t.stack[2], t.sp)) =
      some (0x321, 0x000, 0) := by decide

/-- J22, J23. -/
theorem test_bbl :
    nextOf (step (({ prog 0x050 [0xC7] with sp := 1, cy := 1 }).setStackSlot 0 0x004))
      (fun t => (t.pc, t.acc, t.sp, t.cy)) = some (0x004, 7, 0, 1) ∧
    nextOf (step (prog 0x050 [0xC0])) (fun t => (t.pc, t.acc, t.sp)) = some (0x000, 0, 2) := by decide

/-- A1. -/
theorem test_inc :
    nextOf (step (({ prog 0 [0x65] with cy := 1 }).setReg 5 0xF)) (fun t => (readReg t 5, t.cy)) = some (0, 1) := by decide

/-- A4, A8, A10. -/
theorem test_add :
    nextOf (step { prog 0 [0x8E] with acc := 0, cy := 1 }) (fun t => (t.acc, t.cy)) = some (1, 1) ∧
    nextOf (step (({ prog 0 [0x8E] with acc := 9, cy := 1 }).setReg 14 6)) (fun t => (t.acc, t.cy)) = some (0, 1) ∧
    nextOf (step (({ prog 0 [0x8E] with acc := 15, cy := 1 }).setReg 14 15)) (fun t => (t.acc, t.cy)) = some (15, 1) := by
  decide

/-- A12, A13, A16. -/
theorem test_sub :
    nextOf (step (({ prog 0 [0x90] with acc := 3, cy := 0 }).setReg 0 5)) (fun t => (t.acc, t.cy)) = some (14, 0) ∧
    nextOf (step (({ prog 0 [0x90] with acc := 5, cy := 1 }).setReg 0 3)) (fun t => (t.acc, t.cy)) = some (1, 1) ∧
    nextOf (step (({ prog 0 [0x90] with acc := 0, cy := 1 }).setReg 0 15)) (fun t => (t.acc, t.cy)) = some (0, 0) := by
  decide

/-- T4. -/
theorem test_ld :
    nextOf (step (({ prog 0 [0xA3] with acc := 1 }).setReg 3 9)) (fun t => (t.acc, readReg t 3)) = some (9, 9) := by decide

/-- T5. -/
theorem test_xch :
    nextOf (step (({ prog 0 [0xB2] with acc := 8 }).setReg 2 1)) (fun t => (t.acc, readReg t 2)) = some (1, 8) := by decide

/-- T8. -/
theorem test_ldm : nextOf (step { prog 0 [0xD0] with acc := 3, cy := 1 }) (fun t => (t.acc, t.cy)) = some (0, 1) := by decide

/-- A20. -/
theorem test_clb : nextOf (step { prog 0 [0xF0] with acc := 7, cy := 1 }) (fun t => (t.acc, t.cy)) = some (0, 0) := by decide

/-- A21. -/
theorem test_clc : nextOf (step { prog 0 [0xF1] with acc := 7, cy := 1 }) (fun t => (t.acc, t.cy)) = some (7, 0) := by decide

/-- A23, A24. -/
theorem test_iac :
    nextOf (step { prog 0 [0xF2] with acc := 3, cy := 1 }) (fun t => (t.acc, t.cy)) = some (4, 1) ∧
    errorOf (step { prog 0x010 [0xF2] with acc := 15 }) (fun t => (t.acc, t.cy, t.pc)) =
      some (.rangeError (.cell .acc) 16, 15, 0, 0x011) := by decide

/-- A25, A26. -/
theorem test_dac :
    nextOf (step { prog 0 [0xF8] with acc := 0, cy := 1 }) (fun t => (t.acc, t.cy)) = some (0xF, 0) ∧
    nextOf (step { prog 0 [0xF8] with acc := 1 }) (fun t => (t.acc, t.cy)) = some (0, 1) := by decide

/-! ### Cells, loader, stack, registry -/

/-- B2, B5, B6, B9, B11. -/
theorem test_cells :
    errorOf (hostWrite .acc (.int 16) { State.reset with acc := 3 }) (·.acc) = some (.rangeError (.cell .acc) 16, 3) ∧
    cellIncrement (.reg 7) (15 : Nibble) = .error (.rangeError (.cell (.reg 7)) 16) ∧
    cellDecrement (.reg 7) (0 : Nibble) = .error (.rangeError (.cell (.reg 7)) (-1)) ∧
    cellInverted (0x123 : Addr) = 0xEDC ∧
    errorOf (hostWrite (.pair 2) (.int 256) (State.reset.setReg 4 1)) (readReg · 4) =
      some (.rangeError (.cell (.pair 2)) 256, 1) := by decide

/-- B10. -/
theorem test_pair_write :
    nextOf (hostWrite (.pair 2) (.int 0xA5) State.reset) (fun t => (readReg t 4, readReg t 5, hostRead (.pair 2) t)) =
      some (0xA, 0x5, 0xA5) := by decide

/-- L1, L2, L3. -/
theorem test_load_image :
    nextOf (loadImage 4095 [0x12] State.reset) (memRead · 4095) = some 0x12 ∧
    errorOf (loadImage 4095 [0x12, 0x34] State.reset) (memRead · 4095) = some (.rangeError .store 4096, 0) ∧
    errorOf (loadImage 4096 [] State.reset) (·.pc) = some (.rangeError .store 4096, 0) := by decide

/-- K2, K3. -/
theorem test_stack_ring :
    (push 4 (push 3 (push 2 (push 1 State.reset)))).stack.toList = [4, 2, 3] ∧
    (push 4 (push 3 (push 2 (push 1 State.reset)))).sp = 1 ∧
    popValue State.reset = 0 ∧ (popState State.reset).sp = 2 := by decide

/-- R97: two registrations of one byte collide. -/
theorem test_registry_collision :
    registryRegisterAll [] [(0x00, .nop), (0x00, .clb)] = .error (.opcodeCollision 0x00) := by decide

/-! ### Witnesses: concrete values that meet the hypotheses of each statement -/

theorem witness_DecodeOfEncodeIsTheInstruction : Instr.wellFormed Params.default.jumpTop (.jcn 14) = true := by decide

theorem witness_EncodeOfDecodeIsTheBytes :
    decodeBytes Params.default.jumpTop [0x41, 0x23, 0x00] =
      .ok { instr := .jun 1, operand := some 0x23, rest := [0x00] } := by decide

theorem witness_RegisterBindsOnceOrCollides :
    registryLookup [(0x00, .nop)] 0x00 ≠ none ∧ registryLookup [(0x00, .nop)] 0xF0 = none := by decide

theorem witness_HostWriteSucceedsExactlyInRange :
    (0 ≤ (15 : Int) ∧ (15 : Int) ≤ 2 ^ cellWidth .acc State.reset - 1) ∧
    ¬(0 ≤ (16 : Int) ∧ (16 : Int) ≤ 2 ^ cellWidth .acc State.reset - 1) ∧
    ¬(0 ≤ (-1 : Int) ∧ (-1 : Int) ≤ 2 ^ cellWidth .acc State.reset - 1) := by decide

theorem witness_HostWriteChangesOnlyItsCell :
    hostWrite .acc (.int 15) State.reset = .next { State.reset with acc := 15 } ∧ overlaps .acc .cy = false :=
  ⟨rfl, by decide⟩

theorem witness_PairIsAViewOfTwoRegisters :
    (14 : RegIx).val = 2 * (7 : PairIx).val ∧ (15 : RegIx).val = 2 * (7 : PairIx).val + 1 ∧
    (0 : RegIx).val / 2 ≠ (7 : PairIx).val := by decide

theorem witness_IncrementAndDecrementFailAtTheEnds :
    (14 : Nibble).toNat + 1 < 2 ^ 4 ∧ (15 : Nibble).toNat + 1 = 2 ^ 4 ∧ 0 < (1 : Nibble).toNat ∧
    (0 : Nibble).toNat = 0 := by decide

theorem witness_LoadImageIsAllOrNothing :
    State.reset.mem.wf = true ∧
    ((0 : Int) ≤ 4095 ∧ (4095 : Int) + ([0x12] : List Byte).length - 1 ≤ 4095) ∧
    ((4096 : Int) > 4095 ∧ (-1 : Int) < 0) ∧
    (4095 : Int) + ([0x12, 0x34] : List Byte).length - 1 > 4095 := by decide

theorem witness_FetchReturnsTheLastLoadedByte : State.reset.wf = true := by decide

theorem witness_EqualStoresAreEqualLists :
    Memory.wf [(0, 0x12), (4095, 0x34)] = true ∧
    ∀ x, x < 4096 → memLookup [(0, 0x12), (4095, 0x34)] x = memLookup [(0, 0x12), (4095, 0x34)] x :=
  ⟨by decide, fun _ _ => rfl⟩

theorem witness_AdvanceWrapsOrFaultsAtTheTop :
    State.reset.params.pcOverflow = .wrap ∧
    (faulting { State.reset with pc := 4094 }).params.pcOverflow = .fault ∧
    (faulting { State.reset with pc := 4094 }).pc ≠ 4095 ∧
    (faulting { State.reset with pc := 4095 }).pc = 4095 := by decide

theorem witness_StepRunsTheDecodedInstruction :
    CanAdvance (prog 0 [0x8E]) ∧
    decode (prog 0 [0x8E]).params.jumpTop (memRead (prog 0 [0x8E]) (prog 0 [0x8E]).pc) = some (.add 14) :=
  ⟨.inl rfl, by decide⟩

theorem witness_UnregisteredByteRaisesPastIt :
    CanAdvance (faulting (prog 0 [0x01])) ∧
    decode (faulting (prog 0 [0x01])).params.jumpTop
      (memRead (faulting (prog 0 [0x01])) (faulting (prog 0 [0x01])).pc) = none :=
  ⟨.inr (by decide), by decide⟩

theorem witness_OperandFetchAtTheTopRaises :
    (Instr.jun 1).hasOperandByte = true ∧ (faulting { State.reset with pc := 4095 }).params.pcOverflow = .fault ∧
    (faulting { State.reset with pc := 4095 }).pc = 4095 := by decide

theorem witness_StepReturnsTheOpcodeByte :
    (∃ t, step (prog 0 [0xD5]) = .next t) ∧ ∃ f, step (prog 0 [0x01]) = .fault f := ⟨⟨_, rfl⟩, ⟨_, rfl⟩⟩

theorem witness_PcMovesByTheLength :
    (∃ t, step (prog 0 [0x20, 0x35]) = .next t) ∧
    decode (prog 0 [0x20, 0x35]).params.jumpTop (memRead (prog 0 [0x20, 0x35]) (prog 0 [0x20, 0x35]).pc) =
      some (.fim 0) ∧ transfersControl (.fim 0) = false := ⟨⟨_, rfl⟩, by decide, rfl⟩

theorem witness_JcnAndJinStayInThePageAfterThem :
    (∃ t, step (prog 0xFE [0x1C, 0x06]) = .next t) ∧ (∃ t, step (prog 0xFF [0x37]) = .next t) ∧
    decode (prog 0xFE [0x1C, 0x06]).params.jumpTop
      (memRead (prog 0xFE [0x1C, 0x06]) (prog 0xFE [0x1C, 0x06]).pc) = some (.jcn 0xC) ∧
    decode (prog 0xFF [0x37]).params.jumpTop (memRead (prog 0xFF [0x37]) (prog 0xFF [0x37]).pc) = some (.jin 3) :=
  ⟨⟨_, rfl⟩, ⟨_, rfl⟩, by decide, by decide⟩

theorem witness_FaultLogIsNeverCleared :
    (∃ t, hostMove .step (prog 0 [0xD5]) = .next t) ∧ (∃ f, hostMove .step (prog 0 [0x01]) = .fault f) ∧
    (∃ f, hostMove (.write .acc (.int 16)) State.reset = .fault f) ∧
    ∃ f, hostMove (.loadImage 4096 []) State.reset = .fault f := ⟨⟨_, rfl⟩, ⟨_, rfl⟩, ⟨_, rfl⟩, ⟨_, rfl⟩⟩

/-- 60_exceptions.md R100 with 10_state.md R31 and 20_memory.md R38: the errors of host calls are recorded too, in order,
beside a step's. -/
theorem test_host_errors_are_recorded :
    (hostSession [.write .cy (.int 2), .write .cy (.int 1), .step, .loadImage (-1) [0x12]] (prog 0 [0x01])).faultLog =
      [.rangeError (.cell .cy) 2, .unknownOpcode 0x01 0, .rangeError .store (-1)] := by decide

theorem witness_NopOnlyAdvancesThePc :
    CanAdvance { State.reset with pc := 4095 } ∧ memRead State.reset 4095 = 0x00 ∧
    (faulting { State.reset with pc := 4095 }).params.pcOverflow = .fault := ⟨.inl rfl, rfl, rfl⟩

/-- Mask 4 with acc 0 and acc 1: the condition holds and does not, whatever `JCN_INIT` is. -/
theorem witness_JcnReplacesTheLowByteIfTaken :
    (0x14 : Byte).toNat = 0x10 + (4 : Nibble).toNat ∧ CanAdvance State.reset ∧
    jcnCond Config.jcnInit 4 State.reset = true ∧ jcnCond Config.jcnInit 4 { State.reset with acc := 1 } = false ∧
    ¬CanAdvance (faulting { State.reset with pc := 4095 }) :=
  ⟨by decide, .inl rfl, rfl, rfl, fun h => h.elim (by decide) (by decide)⟩

theorem witness_JinReplacesTheLowByteByThePair :
    (0x3F : Byte).toNat = 0x31 + 2 * (7 : PairIx).val ∧ (14 : RegIx).val = 2 * (7 : PairIx).val ∧
    (15 : RegIx).val = 2 * (7 : PairIx).val + 1 := by decide

theorem witness_JunJumpsToTheAbsoluteAddress :
    (0x4E : Byte).toNat = 0x40 + (14 : Nibble).toNat ∧ CanAdvance (faulting { State.reset with pc := 4094 }) :=
  ⟨by decide, .inr (by decide)⟩

theorem witness_JmsPushesTheAddressAfterAndJumps :
    (0x53 : Byte).toNat = 0x50 + (3 : Nibble).toNat ∧ CanAdvance { State.reset with pc := 4095, sp := 2 } ∧
    (0 : Fin 3) ≠ ({ State.reset with pc := 4095, sp := 2 } : State).sp := ⟨by decide, .inl rfl, by decide⟩

theorem witness_BblPopsThePcAndLoadsAcc : (0xC7 : Byte).toNat = 0xC0 + (7 : Nibble).toNat := by decide

theorem witness_BblReturnsAfterTheMatchingJms :
    ∃ t, exec (.jms 1) { State.reset with sp := 2 } = .next t ∧
      ({ t with acc := 3 } : State).stack = t.stack ∧ ({ t with acc := 3 } : State).sp = t.sp := ⟨_, rfl, rfl, rfl⟩

theorem witness_FimLoadsTheOperandByteIntoThePair :
    (0x2E : Byte).toNat = 0x20 + 2 * (7 : PairIx).val ∧ CanAdvance State.reset ∧
    (14 : RegIx).val = 2 * (7 : PairIx).val ∧ (15 : RegIx).val = 2 * (7 : PairIx).val + 1 ∧
    (13 : RegIx).val / 2 ≠ (7 : PairIx).val := ⟨by decide, .inl rfl, by decide, by decide, by decide⟩

theorem witness_LdCopiesTheRegisterToAcc : (0xA3 : Byte).toNat = 0xA0 + (3 : RegIx).val := by decide

theorem witness_XchSwapsAccAndTheRegister :
    (0xB2 : Byte).toNat = 0xB0 + (2 : RegIx).val ∧ (3 : RegIx) ≠ 2 := by decide

theorem witness_LdmLoadsTheImmediate : (0xDF : Byte).toNat = 0xD0 + (15 : Nibble).toNat := by decide

theorem witness_IncWrapsAndKeepsTheCarry :
    (0x65 : Byte).toNat = 0x60 + (5 : RegIx).val ∧ (4 : RegIx) ≠ 5 := by decide

/-- Sums 15 and 16, where the two clauses meet. -/
theorem witness_AddSetsCarryOnOverflowAndNeverClearsIt :
    (0x8E : Byte).toNat = 0x80 + (14 : RegIx).val ∧
    ({ State.reset with acc := 15 } : State).acc.toNat + State.reset.cy.toNat + (readReg State.reset 14).toNat ≤ 15 ∧
    ({ State.reset with acc := 15 } : State).acc.toNat + ({ State.reset with cy := 1 } : State).cy.toNat +
      (readReg State.reset 14).toNat > 15 := by decide

/-- Sums 15 and 16, where the two clauses meet. -/
theorem witness_SubAddsTheComplements :
    (0x90 : Byte).toNat = 0x90 + (0 : RegIx).val ∧
    State.reset.acc.toNat + (15 - (readReg State.reset 0).toNat) +
      (1 - ({ State.reset with cy := 1 } : State).cy.toNat) ≤ 15 ∧
    State.reset.acc.toNat + (15 - (readReg State.reset 0).toNat) + (1 - State.reset.cy.toNat) ≥ 16 := by decide

theorem witness_ClbClearsAccAndCarry : (0xF0 : Byte).toNat = 0xF0 := by decide

theorem witness_ClcClearsCarryOnly : (0xF1 : Byte).toNat = 0xF1 := by decide

theorem witness_IacIncrementsOrRaisesAtFifteen :
    (0xF2 : Byte).toNat = 0xF2 ∧ ({ State.reset with acc := 14 } : State).acc ≠ 15 ∧
    ({ State.reset with acc := 15 } : State).acc = 15 := by decide

theorem witness_DacDecrementsWithInvertedBorrow :
    (0xF8 : Byte).toNat = 0xF8 ∧ State.reset.acc = 0 ∧ ({ State.reset with acc := 1 } : State).acc ≠ 0 := by decide

/-- IAC for what neither writes nor reads cy, CLB for what writes it only, a JCN of mask 4 for what leaves it unread. -/
theorem witness_CarryIsReadAndWrittenOnlyAsListed :
    Leaves (exec .iac State.reset) { State.reset with acc := 1 } ∧
    ((∀ r, Instr.iac ≠ .add r) ∧ (∀ r, Instr.iac ≠ .sub r) ∧ Instr.iac ≠ .clb ∧ Instr.iac ≠ .clc ∧ Instr.iac ≠ .dac) ∧
    ((∀ r, Instr.clb ≠ .add r) ∧ (∀ r, Instr.clb ≠ .sub r) ∧ ∀ c, Instr.clb = .jcn c → c.getLsbD 1 = false) ∧
    ∀ c, Instr.jcn 4 = .jcn c → c.getLsbD 1 = false :=
  ⟨.inl rfl, ⟨nofun, nofun, nofun, nofun, nofun⟩, ⟨nofun, nofun, nofun⟩, fun _ h => by cases h; decide⟩

/-- INC for what neither writes nor reads the accumulator, LD for what writes it only. -/
theorem witness_AccIsReadAndWrittenOnlyAsListed :
    Leaves (exec (.inc 0) State.reset) (State.reset.setReg 0 1) ∧
    ((∀ r, Instr.inc 0 ≠ .add r) ∧ (∀ r, Instr.inc 0 ≠ .sub r) ∧ (∀ r, Instr.inc 0 ≠ .ld r) ∧
      (∀ r, Instr.inc 0 ≠ .xch r) ∧ (∀ d, Instr.inc 0 ≠ .ldm d) ∧ (∀ d, Instr.inc 0 ≠ .bbl d) ∧
      Instr.inc 0 ≠ .clb ∧ Instr.inc 0 ≠ .iac ∧ Instr.inc 0 ≠ .dac) ∧
    ((∀ r, Instr.ld 0 ≠ .add r) ∧ (∀ r, Instr.ld 0 ≠ .sub r) ∧ (∀ r, Instr.ld 0 ≠ .xch r) ∧ Instr.ld 0 ≠ .iac ∧
      Instr.ld 0 ≠ .dac ∧ ∀ c, Instr.ld 0 = .jcn c → c.getLsbD 2 = false) :=
  ⟨.inl rfl, ⟨nofun, nofun, nofun, nofun, nofun, nofun, nofun, nofun, nofun⟩, ⟨nofun, nofun, nofun, nofun, nofun, nofun⟩⟩

theorem witness_FourthPushOverwritesTheOldest :
    (0 : Fin 3).val = (({ State.reset with sp := 2 } : State).sp.val + 1) % 3 ∧
    (1 : Fin 3).val = (({ State.reset with sp := 2 } : State).sp.val + 2) % 3 := by decide

theorem witness_RegistersChangeOnlyAsListed :
    Leaves (exec (.inc 3) State.reset) (State.reset.setReg 3 1) ∧
    readReg (State.reset.setReg 3 1) 3 ≠ readReg State.reset 3 := ⟨.inl rfl, by decide⟩

theorem witness_StackIsUsedByJmsAndBblOnly :
    Leaves (exec .clb State.reset) State.reset ∧ (∀ a4, Instr.clb ≠ .jms a4) ∧ ∀ d, Instr.clb ≠ .bbl d :=
  ⟨.inl rfl, nofun, nofun⟩

theorem witness_NoInstructionWritesTheStore :
    Leaves (exec .nop (prog 0 [0xD5])) (prog 0 [0xD5]) ∧
    Leaves (step (prog 0 [0xD5])) { prog 0 [0xD5] with acc := 5, pc := 1 } := ⟨.inl rfl, .inl rfl⟩

theorem witness_StepNeverChangesTheHostCells :
    Leaves (step (prog 0 [0xD5])) { prog 0 [0xD5] with acc := 5, pc := 1 } := .inl rfl

theorem witness_TestPinIsReadOnlyByJcnAndNeverWritten :
    (∀ c, Instr.jcn 0xE = .jcn c → c.getLsbD 0 = false) ∧
    Leaves (step (prog 0 [0xD5])) { prog 0 [0xD5] with acc := 5, pc := 1 } :=
  ⟨fun _ h => by cases h; decide, .inl rfl⟩

/-- A next state and the state an error leaves. -/
theorem witness_StepKeepsTheStateWellFormed :
    (prog 0 [0xD5]).wf = true ∧ Leaves (step (prog 0 [0xD5])) { prog 0 [0xD5] with acc := 5, pc := 1 } ∧
    (prog 0 [0x01]).wf = true ∧
    Leaves (step (prog 0 [0x01])) { prog 0 [0x01] with pc := 1, faultLog := [.unknownOpcode 0x01 0] } :=
  ⟨by decide, .inl rfl, by decide, .inr ⟨_, rfl, rfl⟩⟩

theorem witness_SessionKeepsTheStateWellFormed : (prog 0 [0xD5]).wf = true ∧ State.reset.wf = true := by decide

theorem witness_RunEndsAfterNStepsOrAtTheFirstError :
    (∃ t, runSteps 1 (prog 0 [0xD5]) = .next t) ∧ ∃ f, runSteps 1 (prog 0 [0x01]) = .fault f := ⟨⟨_, rfl⟩, ⟨_, rfl⟩⟩

theorem witness_JunToItselfChangesNothing :
    (prog 0x123 [0x41, 0x23]).pc = (1 : Nibble) ++ (0x23 : Byte) ∧
    memRead (prog 0x123 [0x41, 0x23]) (prog 0x123 [0x41, 0x23]).pc = 0x4#4 ++ (1 : Nibble) ∧
    memRead (prog 0x123 [0x41, 0x23]) ((prog 0x123 [0x41, 0x23]).pc + 1) = 0x23 ∧ (1 : Nibble) ≠ 15 ∧
    (prog 0x123 [0x41, 0x23]).params.pcOverflow = .wrap := by decide

/-- The same at 4093 under `PC_OVERFLOW = fault`, the highest address at which both advances succeed, with 0x4F registered
there by `JUMP_TOP_REGISTERED`. -/
theorem witness_JunToItselfChangesNothing_at_4093 :
    let s := { faulting (prog 4093 [0x4F, 0xFD]) with
      params := { Params.default with pcOverflow := .fault, jumpTop := { jcn := false, jun := true, jms := false } } }
    s.pc = (15 : Nibble) ++ (0xFD : Byte) ∧ memRead s s.pc = 0x4#4 ++ (15 : Nibble) ∧ memRead s (s.pc + 1) = 0xFD ∧
    s.params.jumpTop.jun = true ∧ s.pc.toNat < 4094 := by decide

end Sys2Proof.Tests
end

namespace Sys2Proof.Machine

open Sys2Proof.Safety

/-! ## What a step and an instruction can do -/

/-! ### What an outcome leaves -/

theorem leaves_next {s t : State} : Leaves (.next s) t ↔ t = s := by
  simp [Leaves, eq_comm]

/-- A raise leaves the state it is made at, with the error logged. -/
theorem leaves_raise {e : ErrorInfo} {s t : State} : Leaves (raise e s) t ↔ t = s.logError e := by
  simp [Leaves, raise, eq_comm]

/-! ### Register pairs (10_state.md R17, R18) -/

theorem pairHi_val (p : PairIx) : (pairHi p).val = 2 * p.val := rfl

theorem pairLo_val (p : PairIx) : (pairLo p).val = 2 * p.val + 1 := rfl

theorem pairHi_ne_pairLo (p q : PairIx) : pairHi p ≠ pairLo q := by
  simp only [ne_eq, Fin.ext_iff, pairHi_val, pairLo_val]; omega

theorem highNibble_toNat (v : Byte) : (highNibble v).toNat = v.toNat / 16 := by
  simp [highNibble, Nat.shiftRight_eq_div_pow]; omega

theorem lowNibble_toNat (v : Byte) : (lowNibble v).toNat = v.toNat % 16 := by
  simp [lowNibble]

/-- Joining two nibbles puts the first in the upper half. -/
theorem toNat_append_nibbles (hi lo : Nibble) : (hi ++ lo).toNat = 16 * hi.toNat + lo.toNat := by
  rw [BitVec.toNat_append, ← Nat.shiftLeft_add_eq_or_of_lt lo.isLt, Nat.shiftLeft_eq]
  omega

theorem highNibble_append_lowNibble (v : Byte) : highNibble v ++ lowNibble v = v := by
  apply BitVec.eq_of_toNat_eq
  rw [toNat_append_nibbles, highNibble_toNat, lowNibble_toNat]
  omega

theorem readPair_toNat (s : State) (p : PairIx) :
    (readPair s p).toNat = 16 * (readReg s (pairHi p)).toNat + (readReg s (pairLo p)).toNat :=
  toNat_append_nibbles _ _

theorem readReg_writePair_hi (s : State) (p : PairIx) (v : Byte) :
    readReg (writePair s p v) (pairHi p) = highNibble v := by
  rw [writePair, readReg_setReg_other _ _ (pairHi_ne_pairLo p p), readReg_setReg_self]

theorem readReg_writePair_lo (s : State) (p : PairIx) (v : Byte) :
    readReg (writePair s p v) (pairLo p) = lowNibble v := by
  rw [writePair, readReg_setReg_self]

theorem readReg_writePair_other (s : State) {p : PairIx} {q : RegIx} (v : Byte) (h : q.val / 2 ≠ p.val) :
    readReg (writePair s p v) q = readReg s q := by
  have hhi : q ≠ pairHi p := by rintro rfl; rw [pairHi_val] at h; omega
  have hlo : q ≠ pairLo p := by rintro rfl; rw [pairLo_val] at h; omega
  rw [writePair, readReg_setReg_other _ _ hlo, readReg_setReg_other _ _ hhi]

theorem readPair_writePair_self (s : State) (p : PairIx) (v : Byte) : readPair (writePair s p v) p = v := by
  rw [readPair, readReg_writePair_hi, readReg_writePair_lo, highNibble_append_lowNibble]

/-! ### What a completed instruction may have changed -/

theorem addTo_writes_acc_cy (s : State) (x : Nibble) :
    addTo s x = { s with acc := (addTo s x).acc, cy := (addTo s x).cy } := by
  unfold addTo; split <;> rfl

theorem subFrom_writes_acc_cy (s : State) (x : Nibble) :
    subFrom s x = { s with acc := (subFrom s x).acc, cy := (subFrom s x).cy } := by
  unfold subFrom; split <;> rfl

theorem decrementAcc_writes_acc_cy (s : State) :
    decrementAcc s = { s with acc := (decrementAcc s).acc, cy := (decrementAcc s).cy } := by
  unfold decrementAcc; split <;> rfl

/-- All that IAC can do (43_accumulator.md R91): the increment of the accumulator, or its error. -/
theorem execIac_cases (s : State) :
    (∃ v, cellIncrement .acc s.acc = .ok v ∧ execIac s = .next (s.setAcc v)) ∨
      ∃ e, cellIncrement .acc s.acc = .error e ∧ execIac s = raise e s := by
  unfold execIac
  cases cellIncrement .acc s.acc with
  | ok v => exact .inl ⟨v, rfl, rfl⟩
  | error e => exact .inr ⟨e, rfl, rfl⟩

/-- The writers of each cell (10_state.md R19 to R27), instruction by instruction: `s` with the cells that a completed
`i` writes taken from `t`. A FIM leaves the counter past its operand byte. -/
def withWritesOf (i : Instr) (s t : State) : State :=
  match i with
  | .nop => s
  | .jcn _ => { s with pc := t.pc }
  | .fim p => { s with pc := s.pc + 1, regs := (writePair s p (readPair t p)).regs }
  | .jin _ => { s with pc := t.pc }
  | .jun _ => { s with pc := t.pc }
  | .jms _ => { s with pc := t.pc, stack := t.stack, sp := t.sp }
  | .inc r => { s with regs := (s.setReg r (readReg t r)).regs }
  | .add _ => { s with acc := t.acc, cy := t.cy }
  | .sub _ => { s with acc := t.acc, cy := t.cy }
  | .ld _ => { s with acc := t.acc }
  | .xch r => { s with acc := t.acc, regs := (s.setReg r (readReg t r)).regs }
  | .bbl _ => { s with pc := t.pc, acc := t.acc, sp := t.sp }
  | .ldm _ => { s with acc := t.acc }
  | .clb => { s with acc := t.acc, cy := t.cy }
  | .clc => { s with cy := t.cy }
  | .iac => { s with acc := t.acc }
  | .dac => { s with acc := t.acc, cy := t.cy }

/-- `t` differs from `s` at most in the cells that a completed `i` writes. -/
def ChangesOnly (i : Instr) (s t : State) : Prop := t = withWritesOf i s t

/-- No instruction writes the store or a cell that only the host writes. -/
theorem withWritesOf_host_state (i : Instr) (s t : State) :
    (withWritesOf i s t).mem = s.mem ∧ SameHostCells s (withWritesOf i s t) := by
  cases i <;> exact ⟨rfl, rfl, rfl, rfl⟩

/-- A handler that only fetches its operand byte and then completes: what its last state meets, or the raise of the
operand's advance. -/
theorem fetch8_completes_or_raises (s : State) (g : Byte → State → State) {P : State → Prop}
    (h : P (g (memRead s s.pc) (s.setPc (s.pc + 1)))) :
    (∃ t, fetch8 s (fun b t => .next (g b t)) = .next t ∧ P t) ∨
      ∃ e, fetch8 s (fun b t => .next (g b t)) = raise e s := by
  obtain ⟨-, he⟩ | ⟨-, -, he⟩ := fetch8_cases s fun b t => .next (g b t)
  · exact .inl ⟨_, he, h⟩
  · exact .inr ⟨_, he⟩

/-- All that an instruction can do: it completes, having written no more than it may, or it raises before any write. -/
theorem exec_cases (i : Instr) (s : State) :
    (∃ t, exec i s = .next t ∧ ChangesOnly i s t) ∨ ∃ e, exec i s = raise e s := by
  cases i with
  | nop => exact .inl ⟨_, rfl, rfl⟩
  | jcn c =>
    simp only [exec, execJcn, execJcnWith]
    exact fetch8_completes_or_raises s _ rfl
  | fim p =>
    refine fetch8_completes_or_raises s (fun b t => writePair t p b) ?_
    rw [ChangesOnly, withWritesOf, readPair_writePair_self]
    rfl
  | jin p => exact .inl ⟨_, rfl, rfl⟩
  | jun a4 =>
    simp only [exec, execJun]
    exact fetch8_completes_or_raises s _ rfl
  | jms a4 =>
    simp only [exec, execJms]
    exact fetch8_completes_or_raises s _ rfl
  | inc r =>
    refine .inl ⟨_, rfl, ?_⟩
    rw [ChangesOnly, withWritesOf, readReg_setReg_self]
    rfl
  | add r => exact .inl ⟨_, rfl, addTo_writes_acc_cy s _⟩
  | sub r => exact .inl ⟨_, rfl, subFrom_writes_acc_cy s _⟩
  | ld r => exact .inl ⟨_, rfl, rfl⟩
  | xch r =>
    refine .inl ⟨_, rfl, ?_⟩
    rw [ChangesOnly, withWritesOf, readReg_setReg_self]
    rfl
  | bbl d => exact .inl ⟨_, rfl, rfl⟩
  | ldm d => exact .inl ⟨_, rfl, rfl⟩
  | clb => exact .inl ⟨_, rfl, rfl⟩
  | clc => exact .inl ⟨_, rfl, rfl⟩
  | iac =>
    obtain ⟨v, -, he⟩ | ⟨e, -, he⟩ := execIac_cases s
    · exact .inl ⟨_, he, rfl⟩
    · exact .inr ⟨e, he⟩
  | dac => exact .inl ⟨_, rfl, decrementAcc_writes_acc_cy s⟩

theorem exec_next_changesOnly {i : Instr} {s t : State} (h : exec i s = .next t) : ChangesOnly i s t := by
  obtain ⟨u, hu, hc⟩ | ⟨e, he⟩ := exec_cases i s
  · rw [hu] at h
    cases h
    exact hc
  · exact absurd (he.symm.trans h) (raise_ne_next e s t)

/-- What an instruction leaves: a completed state, or the state it started from with its error logged. -/
theorem leaves_exec {i : Instr} {s t : State} (h : Leaves (exec i s) t) : ChangesOnly i s t ∨ ∃ e, t = s.logError e := by
  obtain ⟨u, hu, hc⟩ | ⟨e, he⟩ := exec_cases i s
  · rw [hu, leaves_next] at h
    exact .inl (h ▸ hc)
  · rw [he, leaves_raise] at h
    exact .inr ⟨e, h⟩

/-- No instruction writes the store or a cell that only the host writes, whether it completes or raises. -/
theorem exec_keeps_host_state {i : Instr} {s t : State} (h : Leaves (exec i s) t) : t.mem = s.mem ∧ SameHostCells s t := by
  obtain hc | ⟨e, rfl⟩ := leaves_exec h
  · rw [hc]
    exact withWritesOf_host_state i s t
  · exact ⟨rfl, rfl, rfl, rfl⟩

/-! ### What a step can do (40_engine.md R63 to R67) -/

/-- All that a step can do: the opcode's advance raises, the byte has no handler, or its instruction is executed at the
state whose counter is past it. -/
theorem step_cases (s : State) :
    (s.params.pcOverflow = .fault ∧ s.pc = 4095 ∧ step s = raise (.rangeError (.cell .pc) 4096) s) ∨
    (CanAdvance s ∧ decode s.params.jumpTop (memRead s s.pc) = none ∧
      step s = raise (.unknownOpcode (memRead s s.pc) s.pc) (s.setPc (s.pc + 1))) ∨
    ∃ i, CanAdvance s ∧ decode s.params.jumpTop (memRead s s.pc) = some i ∧ step s = exec i (s.setPc (s.pc + 1)) := by
  unfold step
  by_cases hadv : CanAdvance s
  · rw [fetch8_next hadv, State.setPc_params]
    cases hd : decode s.params.jumpTop (memRead s s.pc) with
    | none => exact .inr (.inl ⟨hadv, rfl, rfl⟩)
    | some i => exact .inr (.inr ⟨i, hadv, rfl, rfl⟩)
  · obtain ⟨h, -⟩ | ⟨hf, hpc, -⟩ := advancePc_cases s
    · exact absurd h hadv
    · exact .inl ⟨hf, hpc, fetch8_raise hf hpc _⟩

/-- A step that completes has executed the instruction at the counter. -/
theorem step_next_exec {s t : State} {i : Instr} (h : step s = .next t)
    (hd : decode s.params.jumpTop (memRead s s.pc) = some i) : exec i (s.setPc (s.pc + 1)) = .next t := by
  obtain ⟨-, -, he⟩ | ⟨-, -, he⟩ | ⟨j, -, hj, he⟩ := step_cases s
  · exact absurd (he.symm.trans h) (raise_ne_next _ _ _)
  · exact absurd (he.symm.trans h) (raise_ne_next _ _ _)
  · rw [hd] at hj
    cases hj
    exact he.symm.trans h

/-- No step writes the store or a cell that only the host writes, whether it completes or raises. -/
theorem step_keeps_host_state {s t : State} (h : Leaves (step s) t) : t.mem = s.mem ∧ SameHostCells s t := by
  obtain ⟨-, -, he⟩ | ⟨-, -, he⟩ | ⟨i, -, -, he⟩ := step_cases s
  · rw [he, leaves_raise] at h
    subst h
    exact ⟨rfl, rfl, rfl, rfl⟩
  · rw [he, leaves_raise] at h
    subst h
    exact ⟨rfl, rfl, rfl, rfl⟩
  · rw [he] at h
    exact (exec_keeps_host_state h :)

end Sys2Proof.Machine

namespace Sys2Proof.Machine

open Sys2Proof.Safety

/-! ## The bounded cells, the accessors and the invariant (10_state.md R13 to R18, R31) -/

/-! ### A bounded cell -/

/-- The cell's content after a `set` in range, as an integer. -/
theorem ofInt_toNat_of_range {w : Nat} {v : Int} (h : 0 ≤ v ∧ v ≤ 2 ^ w - 1) : ((BitVec.ofInt w v).toNat : Int) = v := by
  have hlt : v < ((2 ^ w : Nat) : Int) := by push_cast; omega
  rw [BitVec.toNat_ofInt, Int.emod_eq_of_lt h.1 hlt, Int.toNat_of_nonneg h.1]

/-- Decrementing a bounded cell above 0. -/
theorem cellDecrement_ok {w : Nat} (c : CellName) {v : BitVec w} (h : 0 < v.toNat) :
    cellDecrement c v = .ok (BitVec.ofNat w (v.toNat - 1)) := by
  have hlt : v.toNat - 1 < 2 ^ w := by have := v.isLt; omega
  have hcast : (v.toNat : Int) - 1 = ((v.toNat - 1 : Nat) : Int) := by omega
  rw [cellDecrement, hcast, cellSet_ok c w hlt]

/-- Decrementing a bounded cell at 0. -/
theorem cellDecrement_error {w : Nat} (c : CellName) {v : BitVec w} (h : v.toNat = 0) :
    cellDecrement c v = .error (.rangeError (.cell c) (-1)) := by
  rw [cellDecrement, h]
  exact cellSet_error c w (by omega)

/-! ### What an accessor writes -/

/-- The state after a write of `v` to `c` in range. -/
def cellWritten (c : CellName) (v : Int) (s : State) : State :=
  match c with
  | .acc => s.setAcc (BitVec.ofInt 4 v)
  | .cy => s.setCy (BitVec.ofInt 1 v)
  | .reg r => s.setReg r (BitVec.ofInt 4 v)
  | .pair p => writePair s p (BitVec.ofInt 8 v)
  | .pc => s.setPc (BitVec.ofInt 12 v)
  | .test => s.setTest (BitVec.ofInt 1 v)
  | .stack k => s.setStackSlot k (BitVec.ofInt 12 v)
  | .dp => s.setDp v.toNat

/-- `hostSet` in range. -/
theorem hostSet_ok {c : CellName} {v : Int} {s : State} (h : 0 ≤ v ∧ v ≤ 2 ^ cellWidth c s - 1) :
    hostSet c v s = .ok (cellWritten c v s) := by
  cases c with
  | dp => exact if_pos h
  | acc | cy | reg _ | pair _ | pc | test | stack _ =>
    rw [hostSet, cellSet, if_pos]
    · rfl
    · exact h

/-- `hostSet` out of range. -/
theorem hostSet_error {c : CellName} {v : Int} {s : State} (h : ¬(0 ≤ v ∧ v ≤ 2 ^ cellWidth c s - 1)) :
    hostSet c v s = .error (.rangeError (.cell c) v) := by
  cases c with
  | dp => exact if_neg h
  | acc | cy | reg _ | pair _ | pc | test | stack _ =>
    rw [hostSet, cellSet, if_neg]
    · rfl
    · exact h

/-- A write accessor that completes had a value in range, and writes it. -/
theorem hostSet_ok_iff {c : CellName} {v : Int} {s t : State} :
    hostSet c v s = .ok t ↔ (0 ≤ v ∧ v ≤ 2 ^ cellWidth c s - 1) ∧ t = cellWritten c v s := by
  by_cases h : 0 ≤ v ∧ v ≤ 2 ^ cellWidth c s - 1
  · simp [hostSet_ok h, h, eq_comm]
  · simp only [hostSet_error h, h, false_and, reduceCtorEq]

theorem hostWrite_next_iff {c : CellName} {v : Int} {s t : State} :
    hostWrite c (.int v) s = .next t ↔ (0 ≤ v ∧ v ≤ 2 ^ cellWidth c s - 1) ∧ t = cellWritten c v s := by
  rw [← hostSet_ok_iff, hostWrite]
  cases hostSet c v s with
  | ok u => simp [hostResult]
  | error e => simp [hostResult, raise_ne_next]

/-- A cell reads back what was written to it. -/
theorem hostRead_cellWritten_self {c : CellName} {v : Int} {s : State} (h : 0 ≤ v ∧ v ≤ 2 ^ cellWidth c s - 1) :
    (hostRead c (cellWritten c v s) : Int) = v := by
  cases c with
  | acc | cy | pc | test => exact ofInt_toNat_of_range h
  | reg r =>
    simp only [hostRead, cellWritten, readReg_setReg_self]
    exact ofInt_toNat_of_range h
  | pair p =>
    simp only [hostRead, cellWritten, readPair_writePair_self]
    exact ofInt_toNat_of_range h
  | stack k =>
    simp only [hostRead, cellWritten, State.setStackSlot_stack, Vector.getElem_set_self]
    exact ofInt_toNat_of_range h
  | dp => exact Int.toNat_of_nonneg h.1

/-- A register write leaves the pairs it is no part of. -/
theorem readPair_setReg_other (s : State) {r : RegIx} {p : PairIx} (v : Nibble) (h : r.val / 2 ≠ p.val) :
    readPair (s.setReg r v) p = readPair s p := by
  have hhi : pairHi p ≠ r := by rintro rfl; rw [pairHi_val] at h; omega
  have hlo : pairLo p ≠ r := by rintro rfl; rw [pairLo_val] at h; omega
  rw [readPair, readReg_setReg_other _ _ hhi, readReg_setReg_other _ _ hlo, ← readPair]

/-- A pair write leaves every other pair. -/
theorem readPair_writePair_other (s : State) {p q : PairIx} (v : Byte) (h : p ≠ q) :
    readPair (writePair s p v) q = readPair s q := by
  have hpq : p.val ≠ q.val := fun e => h (Fin.ext e)
  have hhi : (pairHi p).val / 2 ≠ q.val := by rw [pairHi_val]; omega
  have hlo : (pairLo p).val / 2 ≠ q.val := by rw [pairLo_val]; omega
  rw [writePair, readPair_setReg_other _ _ hlo, readPair_setReg_other _ _ hhi]

/-- A slot write leaves the other slots. -/
theorem stack_setStackSlot_other (s : State) {k j : Fin 3} (a : Addr) (h : k ≠ j) :
    (s.setStackSlot k a).stack[j.val] = s.stack[j.val] :=
  Vector.getElem_set_ne k.isLt j.isLt fun e => h (Fin.ext e)

/-- A cell that shares no storage with the one written reads as before. -/
theorem hostRead_cellWritten_other {c d : CellName} (v : Int) (s : State) (h : overlaps c d = false) :
    hostRead d (cellWritten c v s) = hostRead d s := by
  cases c with
  | acc | cy | pc | test | dp => cases d <;> simp [overlaps] at h <;> rfl
  | reg r =>
    cases d with
    | reg q =>
      have hne : q ≠ r := by rintro rfl; simp [overlaps] at h
      simp only [hostRead, cellWritten, readReg_setReg_other _ _ hne]
    | pair p =>
      have hne : r.val / 2 ≠ p.val := by simpa [overlaps] using h
      simp only [hostRead, cellWritten, readPair_setReg_other _ _ hne]
    | acc | cy | pc | test | stack _ | dp => rfl
  | pair p =>
    cases d with
    | reg q =>
      have hne : q.val / 2 ≠ p.val := by simpa [overlaps] using h
      simp only [hostRead, cellWritten, readReg_writePair_other _ _ hne]
    | pair q =>
      have hne : p ≠ q := by rintro rfl; simp [overlaps] at h
      simp only [hostRead, cellWritten, readPair_writePair_other _ _ hne]
    | acc | cy | pc | test | stack _ | dp => rfl
  | stack k =>
    cases d with
    | stack j =>
      have hne : k ≠ j := by rintro rfl; simp [overlaps] at h
      simp only [hostRead, cellWritten, stack_setStackSlot_other _ _ hne]
    | acc | cy | reg _ | pair _ | pc | test | dp => rfl

/-- What no accessor reaches. -/
theorem cellWritten_keeps (c : CellName) (v : Int) (s : State) :
    (cellWritten c v s).sp = s.sp ∧ (cellWritten c v s).mem = s.mem ∧ (cellWritten c v s).params = s.params ∧
      (cellWritten c v s).faultLog = s.faultLog := by
  cases c <;> exact ⟨rfl, rfl, rfl, rfl⟩

/-! ### The invariant -/

theorem wf_iff {s : State} : s.wf = true ↔ s.mem.wf = true ∧ s.dp < 2 ^ s.params.dpWidth := by
  simp [State.wf]

/-- The invariant speaks only of the store, the data pointer and the parameters. -/
theorem wf_of_same {s t : State} (h : s.wf = true) (hmem : t.mem = s.mem) (hhost : SameHostCells s t) : t.wf = true := by
  obtain ⟨-, hdp, hparams⟩ := hhost
  rw [State.wf, hmem, hdp, hparams]
  exact h

theorem wf_logError {s : State} (e : ErrorInfo) (h : s.wf = true) : (s.logError e).wf = true := h

/-- An accessor write in range keeps the invariant: only one to the data pointer could break it. -/
theorem wf_cellWritten {c : CellName} {v : Int} {s : State} (h : s.wf = true)
    (hv : 0 ≤ v ∧ v ≤ 2 ^ cellWidth c s - 1) : (cellWritten c v s).wf = true := by
  cases c with
  | acc | cy | reg _ | pair _ | pc | test | stack _ => exact h
  | dp =>
    have hdp : v < ((2 ^ s.params.dpWidth : Nat) : Int) := by
      push_cast
      exact Int.lt_of_le_sub_one hv.2
    refine wf_iff.mpr ⟨(wf_iff.mp h).1, ?_⟩
    exact (Int.toNat_lt hv.1).mpr hdp

/-- The state an outcome leaves meets the invariant if the starting state and every state `Leaves` speaks of do. -/
theorem wf_stateAfter {s : State} {o : Result} (h : s.wf = true) (ho : ∀ t, Leaves o t → t.wf = true) :
    (stateAfter s o).wf = true := by
  cases o with
  | next t => exact ho t (.inl rfl)
  | fault f => exact ho f.after (.inr ⟨f, rfl, rfl⟩)
  | refused r => exact h

theorem step_keeps_wf {s t : State} (h : s.wf = true) (hl : Leaves (step s) t) : t.wf = true := by
  obtain ⟨hmem, hhost⟩ := step_keeps_host_state hl
  exact wf_of_same h hmem hhost

theorem hostWrite_keeps_wf {c : CellName} {v : HostValue} {s t : State} (h : s.wf = true)
    (hl : Leaves (hostWrite c v s) t) : t.wf = true := by
  obtain ⟨n, u, -, hset, he⟩ | ⟨n, e, -, -, he⟩ | ⟨x, -, he⟩ := hostWrite_cases c v s
  · rw [he, leaves_next] at hl
    obtain ⟨hrange, hu⟩ := hostSet_ok_iff.mp hset
    rw [hl, hu]
    exact wf_cellWritten h hrange
  · rw [he, leaves_raise] at hl
    exact hl ▸ wf_logError e h
  · simp [he, Leaves] at hl

theorem loadImage_keeps_wf {start : Int} {bytes : List Byte} {s t : State} (h : s.wf = true)
    (hl : Leaves (loadImage start bytes s) t) : t.wf = true := by
  obtain ⟨hfits, he⟩ | ⟨-, v, he⟩ := loadImage_cases start bytes s
  · rw [he, leaves_next] at hl
    obtain ⟨hmem, hdp⟩ := wf_iff.mp h
    have hend : start.toNat + bytes.length ≤ 4096 := by
      simp only [imageFits, decide_eq_true_eq] at hfits
      omega
    rw [hl]
    exact wf_iff.mpr ⟨wf_memInsertBytes hmem hend, hdp⟩
  · rw [he, leaves_raise] at hl
    exact hl ▸ wf_logError _ h

theorem hostMove_keeps_wf {m : HostMove} {s : State} (h : s.wf = true) : (stateAfter s (hostMove m s)).wf = true := by
  cases m with
  | step => exact wf_stateAfter h fun _ => step_keeps_wf h
  | write c v => exact wf_stateAfter h fun _ => hostWrite_keeps_wf h
  | loadImage start bytes => exact wf_stateAfter h fun _ => loadImage_keeps_wf h

/-! ### The obligations -/

/-- Settles O57: a step writes neither the store nor the data pointer nor the parameters. -/
theorem stepKeepsTheStateWellFormed : Obligations.StepKeepsTheStateWellFormed :=
  fun _ _ h hl => step_keeps_wf h hl

/-- Settles O58, by induction on the list of moves, each of which keeps the invariant. -/
theorem sessionKeepsTheStateWellFormed : Obligations.SessionKeepsTheStateWellFormed := by
  intro moves
  induction moves with
  | nil => exact fun _ h => h
  | cons m rest ih => exact fun s h => ih (stateAfter s (hostMove m s)) (hostMove_keeps_wf h)

/-- Settles O9: in range the write is `cellWritten`, out of range it raises the RangeError of `hostSet`. -/
theorem hostWriteSucceedsExactlyInRange : Obligations.HostWriteSucceedsExactlyInRange := by
  intro c v s
  refine ⟨fun h => ?_, fun h => ?_, fun x => rfl⟩
  · exact ⟨cellWritten c v s, hostWrite_next_iff.mpr ⟨h, rfl⟩, hostRead_cellWritten_self h⟩
  · refine ⟨.rangeError (.cell c) v (s.logError (.rangeError (.cell c) v)), ?_, rfl, rfl⟩
    rw [hostWrite, hostSet_error h]
    rfl

/-- Settles O10: a write that completes is `cellWritten`, which shows only in the cells that overlap its own. -/
theorem hostWriteChangesOnlyItsCell : Obligations.HostWriteChangesOnlyItsCell := by
  intro c v s t h
  obtain ⟨-, rfl⟩ := hostWrite_next_iff.mp h
  exact ⟨fun d hd => hostRead_cellWritten_other v s hd, cellWritten_keeps c v s⟩

/-- Settles O11: of a pair's two registers, the even one is the high nibble and the odd one the low nibble. -/
theorem pairIsAViewOfTwoRegisters : Obligations.PairIsAViewOfTwoRegisters := by
  intro p v s
  refine ⟨rfl, readPair_writePair_self s p v, fun q => ⟨fun hq => ?_, fun hq => ?_, readReg_writePair_other s v⟩⟩
  · obtain rfl : q = pairHi p := Fin.ext hq
    have hlo := (readReg s (pairLo p)).isLt
    rw [readReg_writePair_hi, highNibble_toNat, readPair_toNat]
    exact ⟨rfl, by omega⟩
  · obtain rfl : q = pairLo p := Fin.ext hq
    have hlo := (readReg s (pairLo p)).isLt
    rw [readReg_writePair_lo, lowNibble_toNat, readPair_toNat]
    exact ⟨rfl, by omega⟩

/-- Settles O13: both are a `set` of the neighbouring value, in range or one past an end. -/
theorem incrementAndDecrementFailAtTheEnds : Obligations.IncrementAndDecrementFailAtTheEnds := by
  intro c w v
  refine ⟨fun h => ⟨v + 1, cellIncrement_ok c h, ?_⟩, cellIncrement_error c,
    fun h => ⟨_, cellDecrement_ok c h, ?_⟩, cellDecrement_error c⟩
  · simp [Nat.mod_eq_of_lt h]
  · have hlt : v.toNat - 1 < 2 ^ w := by have := v.isLt; omega
    rw [BitVec.toNat_ofNat, Nat.mod_eq_of_lt hlt]
    omega

/-- Settles O12: it is the bitwise complement. -/
theorem invertedIsTheComplementWithinTheWidth : Obligations.InvertedIsTheComplementWithinTheWidth :=
  fun _ _ => ⟨BitVec.toNat_not, BitVec.not_not⟩

/-- Settles O56: the store is empty and the data pointer 0. -/
theorem constructionIsWellFormed : Obligations.ConstructionIsWellFormed :=
  fun P => wf_iff.mpr ⟨rfl, Nat.two_pow_pos P.dpWidth⟩

/-- Settles O55: the registers and the slots are replicated zeros. -/
theorem constructionZeroesEveryCell : Obligations.ConstructionZeroesEveryCell := by
  intro P
  have hreg : ∀ r : RegIx, readReg (State.construct P) r = 0 := fun r => Vector.getElem_replicate r.isLt
  have hpair : ∀ p : PairIx, readPair (State.construct P) p = 0 := fun p => by
    rw [readPair, hreg, hreg]
    rfl
  have hslot : ∀ k : Fin 3, (State.construct P).stack[k.val] = 0x000 := fun k => Vector.getElem_replicate k.isLt
  exact ⟨rfl, rfl, hreg, hpair, rfl, rfl, hslot, rfl, rfl, fun _ => rfl, rfl, rfl⟩

end Sys2Proof.Machine

namespace Sys2Proof.Machine

open Sys2Proof.Safety

/-! ## The return stack is a ring of three (10_state.md R22 to R24) -/

theorem push_sp (a : Addr) (s : State) : (push a s).sp = s.sp + 1 := rfl

theorem stack_push_self (a : Addr) {s : State} {k : Fin 3} (h : k = s.sp) : (push a s).stack[k.val] = a := by
  subst h
  simp [push]

theorem stack_push_other (a : Addr) {s : State} {k : Fin 3} (h : k ≠ s.sp) :
    (push a s).stack[k.val] = s.stack[k.val] := stack_setStackSlot_other s a h.symm

/-- Three advances bring the cursor back. -/
theorem cursor_add_three : ∀ k : Fin 3, k + 1 + 1 + 1 = k := by decide

theorem cursor_add_sub : ∀ k : Fin 3, k + 1 - 1 = k := by decide

theorem cursor_val_add_one : ∀ k : Fin 3, (k + 1).val = (k.val + 1) % 3 := by decide

theorem cursor_val_sub_one : ∀ k : Fin 3, (k - 1).val = (k.val + 3 - 1) % 3 := by decide

/-- The three slots, from the cursor on, are pairwise different. -/
theorem cursor_distinct : ∀ k : Fin 3, k + 1 ≠ k ∧ k + 1 + 1 ≠ k ∧ k + 1 ≠ k + 1 + 1 := by decide

/-- Settles O14: the cursor of a pop after a push is the slot just pushed. -/
theorem pushAndPopAreARing : Obligations.PushAndPopAreARing := by
  intro a s
  have hback : poppedSp (push a s) = s.sp := cursor_add_sub s.sp
  exact ⟨rfl, cursor_val_add_one s.sp, rfl, cursor_val_sub_one s.sp, rfl, stack_push_self a hback, hback⟩

/-- A push from a state that differs from `s` in the stack only leaves such a state. -/
theorem push_frame (a : Addr) {s u : State} (h : u = { s with stack := u.stack, sp := u.sp }) :
    push a u = { s with stack := (push a u).stack, sp := (push a u).sp } := by
  obtain ⟨x, k, rfl⟩ : ∃ x k, u = { s with stack := x, sp := k } := ⟨u.stack, u.sp, h⟩
  rfl

/-- Settles O15: the fourth push is under the cursor of the first, and the second and third under the two others. -/
theorem fourthPushOverwritesTheOldest : Obligations.FourthPushOverwritesTheOldest := by
  intro a1 a2 a3 a4 s
  obtain ⟨hne1, hne2, hne12⟩ := cursor_distinct s.sp
  have hsp1 : (push a1 s).sp = s.sp + 1 := rfl
  have hsp2 : (push a2 (push a1 s)).sp = s.sp + 1 + 1 := rfl
  have hsp3 : (push a3 (push a2 (push a1 s))).sp = s.sp := cursor_add_three s.sp
  refine ⟨rfl, cursor_val_add_one s.sp, _, rfl, ?_, ?_, ?_, fun k => ⟨fun hk => ?_, fun hk => ?_⟩⟩
  · exact push_frame a4 (push_frame a3 (push_frame a2 (push_frame a1 rfl)))
  · rw [push_sp, hsp3, cursor_val_add_one]
  · exact stack_push_self a4 hsp3.symm
  · obtain rfl : k = s.sp + 1 := Fin.ext (by rw [hk, cursor_val_add_one])
    rw [stack_push_other a4 (hsp3.symm ▸ hne1), stack_push_other a3 (hsp2.symm ▸ hne12)]
    exact stack_push_self a2 hsp1.symm
  · obtain rfl : k = s.sp + 1 + 1 := Fin.ext (by rw [hk, cursor_val_add_one, cursor_val_add_one]; omega)
    rw [stack_push_other a4 (hsp3.symm ▸ hne2)]
    exact stack_push_self a3 hsp2.symm

/-! ## Who writes what -/

/-- Settles O52: neither the raise of a step nor its instruction writes one of them. -/
theorem stepNeverChangesTheHostCells : Obligations.StepNeverChangesTheHostCells :=
  fun _ _ hl => (step_keeps_host_state hl).2

/-- Settles O25: a completed instruction that transfers no control moves the counter only by its operand fetch. -/
theorem pcMovesByTheLength : Obligations.PcMovesByTheLength := by
  intro s t i hstep hd htransfer
  have hc : ChangesOnly i (s.setPc (s.pc + 1)) t := exec_next_changesOnly (step_next_exec hstep hd)
  have hpc : t.pc = s.pc + BitVec.ofNat 12 i.length := by
    rw [hc]
    cases i with
    | jcn _ | jin _ | jun _ | jms _ | bbl _ => cases htransfer
    | fim p => exact BitVec.add_assoc s.pc 1 1
    | nop | inc _ | add _ | sub _ | ld _ | xch _ | ldm _ | clb | clc | iac | dac => rfl
  rw [hpc, BitVec.toNat_add, BitVec.toNat_ofNat, Nat.add_mod_mod]

/-- Settles O49: of the writers of the registers, INC and XCH leave every other register and FIM every other pair. -/
theorem registersChangeOnlyAsListed : Obligations.RegistersChangeOnlyAsListed := by
  intro i s t q hl hne
  obtain hc | ⟨e, rfl⟩ := leaves_exec hl
  · rw [hc] at hne
    cases i with
    | inc r =>
      have hq : q = r := by_contra fun h => hne (readReg_setReg_other s _ h)
      exact .inl (hq ▸ rfl)
    | xch r =>
      have hq : q = r := by_contra fun h => hne (readReg_setReg_other s _ h)
      exact .inr (.inl (hq ▸ rfl))
    | fim p =>
      have hq : q.val / 2 = p.val := by_contra fun h => hne (readReg_writePair_other s _ h)
      exact .inr (.inr ⟨p, rfl, hq⟩)
    | nop | jcn _ | jin _ | jun _ | jms _ | add _ | sub _ | ld _ | bbl _ | ldm _ | clb | clc | iac | dac =>
      exact absurd rfl hne
  · exact absurd rfl hne

/-! ## Who reads what: an instruction does the same whatever a cell it does not read holds

A cell is unread by `k` when overwriting it before `k` and overwriting it after `k` are the same, which `Oblivious` says of
the overwriting `f`. What an instruction needs of `f` for this is `Spares` of each cell it reads or writes. -/

/-- `k` does the same whatever the cells that `f` overwrites hold, and leaves them. -/
def Oblivious (f : State → State) (k : State → Result) : Prop := ∀ s, k (f s) = onState f (k s)

/-- `f` overwrites nothing that a fetch, a register operation or an error reads or writes. -/
structure SparesFetch (f : State → State) : Prop where
  pc : ∀ s, (f s).pc = s.pc
  mem : ∀ s, (f s).mem = s.mem
  params : ∀ s, (f s).params = s.params
  regs : ∀ s, (f s).regs = s.regs
  setPc : ∀ s v, (f s).setPc v = f (s.setPc v)
  setReg : ∀ s r v, (f s).setReg r v = f (s.setReg r v)
  logError : ∀ s e, (f s).logError e = f (s.logError e)

/-- `f` leaves the accumulator. -/
structure SparesAcc (f : State → State) : Prop where
  acc : ∀ s, (f s).acc = s.acc
  setAcc : ∀ s v, (f s).setAcc v = f (s.setAcc v)

/-- `f` leaves the carry. -/
structure SparesCy (f : State → State) : Prop where
  cy : ∀ s, (f s).cy = s.cy
  setCy : ∀ s v, (f s).setCy v = f (s.setCy v)

/-- `f` leaves the return stack. -/
structure SparesStack (f : State → State) : Prop where
  stack : ∀ s, (f s).stack = s.stack
  sp : ∀ s, (f s).sp = s.sp
  setStackSlot : ∀ s k v, (f s).setStackSlot k v = f (s.setStackSlot k v)
  setSp : ∀ s v, (f s).setSp v = f (s.setSp v)

/-- The condition of a JCN of mask `c` does not depend on what `f` overwrites. -/
def SparesCond (f : State → State) (c : Nibble) : Prop :=
  ∀ s, jcnCond Config.jcnInit c (f s) = jcnCond Config.jcnInit c s

/-- The cells that `i` reads or writes, beside those of `SparesFetch`, are left by `f` (10_state.md R20 to R26). -/
def SparesCellsOf (f : State → State) (i : Instr) : Prop :=
  match i with
  | .nop => True
  | .jcn c => SparesCond f c
  | .fim _ => True
  | .jin _ => True
  | .jun _ => True
  | .jms _ => SparesStack f
  | .inc _ => True
  | .add _ => SparesAcc f ∧ SparesCy f
  | .sub _ => SparesAcc f ∧ SparesCy f
  | .ld _ => SparesAcc f
  | .xch _ => SparesAcc f
  | .bbl _ => SparesStack f ∧ SparesAcc f
  | .ldm _ => SparesAcc f
  | .clb => SparesAcc f ∧ SparesCy f
  | .clc => SparesCy f
  | .iac => SparesAcc f
  | .dac => SparesAcc f ∧ SparesCy f

section Oblivious

variable {f : State → State}

theorem SparesFetch.memRead (hf : SparesFetch f) (s : State) (a : Addr) : memRead (f s) a = memRead s a := by
  rw [Machine.memRead, hf.mem, ← Machine.memRead]

theorem SparesFetch.readReg (hf : SparesFetch f) (s : State) (r : RegIx) : readReg (f s) r = readReg s r := by
  simp only [Machine.readReg, hf.regs]

theorem SparesFetch.readPair (hf : SparesFetch f) (s : State) (p : PairIx) : readPair (f s) p = readPair s p := by
  simp only [Machine.readPair, hf.readReg]

theorem SparesFetch.writePair (hf : SparesFetch f) (s : State) (p : PairIx) (v : Byte) :
    writePair (f s) p v = f (writePair s p v) := by
  simp only [Machine.writePair, hf.setReg]

theorem SparesFetch.canAdvance (hf : SparesFetch f) {s : State} (h : CanAdvance s) : CanAdvance (f s) := by
  rw [CanAdvance, hf.params, hf.pc]
  exact h

theorem oblivious_raise (hf : SparesFetch f) (e : ErrorInfo) : Oblivious f (raise e) := by
  intro s
  rw [raise, hf.logError]
  cases e <;> rfl

/-- A fetch hands the same byte on, so the rest of the handler decides. -/
theorem fetch8_oblivious (hf : SparesFetch f) {k k' : Byte → State → Result}
    (hk : ∀ b t, k' b (f t) = onState f (k b t)) (s : State) : fetch8 (f s) k' = onState f (fetch8 s k) := by
  obtain ⟨hadv, he⟩ | ⟨hfault, hpc, he⟩ := fetch8_cases s k
  · rw [he, fetch8_next (hf.canAdvance hadv), hf.memRead, hf.pc, hf.setPc, hk]
  · rw [he, fetch8_raise ((hf.params s).symm ▸ hfault) ((hf.pc s).trans hpc)]
    exact oblivious_raise hf _ s

theorem addTo_spared (ha : SparesAcc f) (hc : SparesCy f) (s : State) (x : Nibble) : addTo (f s) x = f (addTo s x) := by
  simp only [addTo, ha.acc, hc.cy, hc.setCy, ha.setAcc, apply_ite f]

theorem subFrom_spared (ha : SparesAcc f) (hc : SparesCy f) (s : State) (x : Nibble) :
    subFrom (f s) x = f (subFrom s x) := by
  simp only [subFrom, ha.acc, hc.cy, hc.setCy, ha.setAcc, apply_ite f]

theorem decrementAcc_spared (hf : SparesFetch f) (ha : SparesAcc f) (hc : SparesCy f) (s : State) :
    decrementAcc (f s) = f (decrementAcc s) := by
  simp only [decrementAcc, ha.acc, hf.params, ha.setAcc, hc.setCy, apply_ite f]

theorem execIac_oblivious (hf : SparesFetch f) (ha : SparesAcc f) : Oblivious f execIac := by
  intro s
  unfold execIac
  rw [ha.acc]
  cases cellIncrement .acc s.acc with
  | ok v => exact congrArg Host.Outcome.next (ha.setAcc s v)
  | error e => exact oblivious_raise hf e s

theorem push_spared (hs : SparesStack f) (a : Addr) (s : State) : push a (f s) = f (push a s) := by
  simp only [push, hs.sp, hs.setStackSlot, hs.setSp]

theorem popState_spared (hs : SparesStack f) (s : State) : popState (f s) = f (popState s) := by
  simp only [popState, poppedSp, hs.sp, hs.setSp]

theorem popValue_spared (hs : SparesStack f) (s : State) : popValue (f s) = popValue s := by
  simp only [popValue, poppedSp, hs.sp, hs.stack]

/-- An instruction does the same whatever the cells hold that `f` overwrites, if it uses none of them. -/
theorem exec_oblivious (hf : SparesFetch f) {i : Instr} (hi : SparesCellsOf f i) : Oblivious f (exec i) := by
  intro s
  cases i with
  | nop => rfl
  | jcn c =>
    simp only [exec, execJcn, execJcnWith]
    refine fetch8_oblivious hf (fun b t => ?_) s
    rw [hi, hf.pc, hf.setPc]
    rfl
  | fim p =>
    simp only [exec, execFim]
    exact fetch8_oblivious hf (fun b t => congrArg Host.Outcome.next (hf.writePair t p b)) s
  | jin p =>
    simp only [exec, execJin, hf.pc, hf.readPair, hf.setPc]
    rfl
  | jun a4 =>
    simp only [exec, execJun]
    exact fetch8_oblivious hf (fun b t => congrArg Host.Outcome.next (hf.setPc t _)) s
  | jms a4 =>
    simp only [exec, execJms]
    refine fetch8_oblivious hf (fun b t => ?_) s
    rw [hf.pc, push_spared hi, hf.setPc]
    rfl
  | inc r =>
    simp only [exec, execInc, hf.readReg, hf.setReg]
    rfl
  | add r =>
    simp only [exec, execAdd, hf.readReg, addTo_spared hi.1 hi.2]
    rfl
  | sub r =>
    simp only [exec, execSub, hf.readReg, subFrom_spared hi.1 hi.2]
    rfl
  | ld r =>
    simp only [exec, execLd, hf.readReg, hi.setAcc]
    rfl
  | xch r =>
    simp only [exec, execXch, hf.readReg, hi.acc, hi.setAcc, hf.setReg]
    rfl
  | bbl d =>
    simp only [exec, execBbl, popState_spared hi.1, popValue_spared hi.1, hf.setPc, hi.2.setAcc]
    rfl
  | ldm d => exact congrArg Host.Outcome.next (hi.setAcc s d)
  | clb =>
    simp only [exec, execClb, hi.1.setAcc, hi.2.setCy]
    rfl
  | clc => exact congrArg Host.Outcome.next (hi.setCy s 0)
  | iac => exact execIac_oblivious hf hi s
  | dac => exact congrArg Host.Outcome.next (decrementAcc_spared hf hi.1 hi.2 s)

/-- A step does the same whatever the cells hold that `f` overwrites, if no instruction uses one of them. -/
theorem step_oblivious (hf : SparesFetch f) (hall : ∀ i, SparesCellsOf f i) : Oblivious f step := by
  intro s
  unfold step
  refine fetch8_oblivious hf (fun op t => ?_) s
  rw [hf.params, hf.pc]
  cases decode t.params.jumpTop op with
  | none => exact oblivious_raise hf _ t
  | some i => exact exec_oblivious hf (hall i) t

end Oblivious

/-! ### The overwriting of each cell -/

/-- Overwriting the slots. -/
def setSlots (x : Vector Addr 3) (s : State) : State := { s with stack := x }

theorem setAcc_spares (x : Nibble) :
    SparesFetch (·.setAcc x) ∧ SparesCy (·.setAcc x) ∧ SparesStack (·.setAcc x) := by
  refine ⟨?_, ?_, ?_⟩ <;> constructor <;> intros <;> rfl

theorem setCy_spares (x : Bit) :
    SparesFetch (·.setCy x) ∧ SparesAcc (·.setCy x) ∧ SparesStack (·.setCy x) := by
  refine ⟨?_, ?_, ?_⟩ <;> constructor <;> intros <;> rfl

theorem setTest_spares (x : Bit) :
    SparesFetch (·.setTest x) ∧ SparesAcc (·.setTest x) ∧ SparesCy (·.setTest x) ∧ SparesStack (·.setTest x) := by
  refine ⟨?_, ?_, ?_, ?_⟩ <;> constructor <;> intros <;> rfl

theorem setDp_spares (x : Nat) :
    SparesFetch (·.setDp x) ∧ SparesAcc (·.setDp x) ∧ SparesCy (·.setDp x) ∧ SparesStack (·.setDp x) := by
  refine ⟨?_, ?_, ?_, ?_⟩ <;> constructor <;> intros <;> rfl

theorem setSlots_spares (x : Vector Addr 3) :
    SparesFetch (setSlots x) ∧ SparesAcc (setSlots x) ∧ SparesCy (setSlots x) := by
  refine ⟨?_, ?_, ?_⟩ <;> constructor <;> intros <;> rfl

/-- A JCN tests the pin only by bit 0 of its mask (41_control.md R75). -/
theorem sparesCond_setTest {c : Nibble} (x : Bit) (h : c.getLsbD 0 = false) : SparesCond (·.setTest x) c := by
  intro s
  simp only [jcnCond, h, Bool.false_eq_true, if_false]
  rfl

/-- A JCN tests the carry only by bit 1 of its mask. -/
theorem sparesCond_setCy {c : Nibble} (x : Bit) (h : c.getLsbD 1 = false) : SparesCond (·.setCy x) c := by
  intro s
  simp only [jcnCond, h, Bool.false_eq_true, if_false]
  rfl

/-- A JCN tests the accumulator only by bit 2 of its mask. -/
theorem sparesCond_setAcc {c : Nibble} (x : Nibble) (h : c.getLsbD 2 = false) : SparesCond (·.setAcc x) c := by
  intro s
  simp only [jcnCond, h, Bool.false_eq_true, if_false]
  rfl

/-- An overwriting that leaves the accumulator and the carry can reach only the condition of a JCN and the return stack of a
JMS or a BBL. -/
theorem sparesCellsOf_of_acc_cy {f : State → State} {i : Instr} (ha : SparesAcc f) (hc : SparesCy f)
    (hcond : ∀ c, i = .jcn c → SparesCond f c) (hjms : ∀ a4, i = .jms a4 → SparesStack f)
    (hbbl : ∀ d, i = .bbl d → SparesStack f) : SparesCellsOf f i := by
  cases i with
  | nop | fim _ | jin _ | jun _ | inc _ => trivial
  | jcn c => exact hcond c rfl
  | jms a4 => exact hjms a4 rfl
  | bbl d => exact ⟨hbbl d rfl, ha⟩
  | add _ | sub _ | clb | dac => exact ⟨ha, hc⟩
  | ld _ | xch _ | ldm _ | iac => exact ha
  | clc => exact hc

/-! ### The obligations -/

/-- Settles O53: the data pointer is a cell of no instruction. -/
theorem dataPointerIsNeverRead : Obligations.DataPointerIsNeverRead := by
  intro s d
  obtain ⟨hf, ha, hc, hs⟩ := setDp_spares d
  have hall : ∀ i, SparesCellsOf (·.setDp d) i := fun _ =>
    sparesCellsOf_of_acc_cy ha hc (fun _ _ _ => rfl) (fun _ _ => hs) fun _ _ => hs
  exact step_oblivious hf hall s

/-- Settles O54: the pin reaches an instruction only through the condition of a JCN. -/
theorem testPinIsReadOnlyByJcnAndNeverWritten : Obligations.TestPinIsReadOnlyByJcnAndNeverWritten := by
  refine ⟨fun i s x hjcn => ?_, fun s t hl => (step_keeps_host_state hl).2.1⟩
  obtain ⟨hf, ha, hc, hs⟩ := setTest_spares x
  have hi : SparesCellsOf (·.setTest x) i :=
    sparesCellsOf_of_acc_cy ha hc (fun c h => sparesCond_setTest x (hjcn c h)) (fun _ _ => hs) fun _ _ => hs
  exact exec_oblivious hf hi s

/-- Settles O50: the writers of the stack from `withWritesOf`, its readers from `exec_oblivious`. -/
theorem stackIsUsedByJmsAndBblOnly : Obligations.StackIsUsedByJmsAndBblOnly := by
  intro i s t hl
  refine ⟨fun hjms => ?_, fun hjms hbbl => ?_, fun x hjms hbbl => ?_⟩
  · obtain hc | ⟨e, rfl⟩ := leaves_exec hl
    · rw [hc]
      cases i with
      | jms a4 => exact absurd rfl (hjms a4)
      | nop | jcn _ | fim _ | jin _ | jun _ | inc _ | add _ | sub _ | ld _ | xch _ | bbl _ | ldm _ | clb | clc | iac
      | dac => rfl
    · rfl
  · obtain hc | ⟨e, rfl⟩ := leaves_exec hl
    · rw [hc]
      cases i with
      | jms a4 => exact absurd rfl (hjms a4)
      | bbl d => exact absurd rfl (hbbl d)
      | nop | jcn _ | fim _ | jin _ | jun _ | inc _ | add _ | sub _ | ld _ | xch _ | ldm _ | clb | clc | iac | dac => rfl
    · rfl
  · obtain ⟨hf, ha, hc⟩ := setSlots_spares x
    have hi : SparesCellsOf (setSlots x) i :=
      sparesCellsOf_of_acc_cy ha hc (fun _ _ _ => rfl) (fun a4 h => absurd h (hjms a4)) fun d h => absurd h (hbbl d)
    exact exec_oblivious hf hi s

/-- Settles O47: the writers of the carry from `withWritesOf`, its readers from `exec_oblivious`. -/
theorem carryIsReadAndWrittenOnlyAsListed : Obligations.CarryIsReadAndWrittenOnlyAsListed := by
  intro i s
  refine ⟨fun hadd hsub hclb hclc hdac t hl => ?_, fun hadd hsub hjcn x => ?_⟩
  · obtain hc | ⟨e, rfl⟩ := leaves_exec hl
    · rw [hc]
      cases i with
      | add r => exact absurd rfl (hadd r)
      | sub r => exact absurd rfl (hsub r)
      | clb => exact absurd rfl hclb
      | clc => exact absurd rfl hclc
      | dac => exact absurd rfl hdac
      | nop | jcn _ | fim _ | jin _ | jun _ | jms _ | inc _ | ld _ | xch _ | bbl _ | ldm _ | iac => rfl
    · rfl
  · by_cases hwriter : i = .clb ∨ i = .clc ∨ i = .dac
    · rw [if_pos hwriter]
      obtain rfl | rfl | rfl := hwriter <;> rfl
    · rw [if_neg hwriter]
      obtain ⟨hf, ha, hs⟩ := setCy_spares x
      refine exec_oblivious hf ?_ s
      cases i with
      | add r => exact absurd rfl (hadd r)
      | sub r => exact absurd rfl (hsub r)
      | clb | clc | dac => simp at hwriter
      | nop | fim _ | jin _ | jun _ | inc _ => trivial
      | jcn c => exact sparesCond_setCy x (hjcn c rfl)
      | jms _ => exact hs
      | bbl _ => exact ⟨hs, ha⟩
      | ld _ | xch _ | ldm _ | iac => exact ha

/-- Settles O48: the writers of the accumulator from `withWritesOf`, its readers from `exec_oblivious`. -/
theorem accIsReadAndWrittenOnlyAsListed : Obligations.AccIsReadAndWrittenOnlyAsListed := by
  intro i s
  refine ⟨fun hadd hsub hld hxch hldm hbbl hclb hiac hdac t hl => ?_, fun hadd hsub hxch hiac hdac hjcn x => ?_⟩
  · obtain hc | ⟨e, rfl⟩ := leaves_exec hl
    · rw [hc]
      cases i with
      | add r => exact absurd rfl (hadd r)
      | sub r => exact absurd rfl (hsub r)
      | ld r => exact absurd rfl (hld r)
      | xch r => exact absurd rfl (hxch r)
      | ldm d => exact absurd rfl (hldm d)
      | bbl d => exact absurd rfl (hbbl d)
      | clb => exact absurd rfl hclb
      | iac => exact absurd rfl hiac
      | dac => exact absurd rfl hdac
      | nop | jcn _ | fim _ | jin _ | jun _ | jms _ | inc _ | clc => rfl
    · rfl
  · by_cases hwriter : (∃ r, i = .ld r) ∨ (∃ d, i = .ldm d) ∨ (∃ d, i = .bbl d) ∨ i = .clb
    · rw [if_pos hwriter]
      obtain ⟨r, rfl⟩ | ⟨d, rfl⟩ | ⟨d, rfl⟩ | rfl := hwriter <;> rfl
    · rw [if_neg hwriter]
      obtain ⟨hf, hc, hs⟩ := setAcc_spares x
      refine exec_oblivious hf ?_ s
      cases i with
      | add r => exact absurd rfl (hadd r)
      | sub r => exact absurd rfl (hsub r)
      | xch r => exact absurd rfl (hxch r)
      | iac => exact absurd rfl hiac
      | dac => exact absurd rfl hdac
      | ld _ | ldm _ | bbl _ | clb => simp at hwriter
      | nop | fim _ | jin _ | jun _ | inc _ => trivial
      | jcn c => exact sparesCond_setAcc x (hjcn c rfl)
      | jms _ => exact hs
      | clc => exact hc

end Sys2Proof.Machine

namespace Sys2Proof.Machine

open Sys2Proof.Safety

/-! ## The instruction store (20_memory.md) -/

/-! ### The canonical form -/

theorem wfFrom_cons_iff {lo a : Nat} {b : Byte} {rest : Memory} :
    Memory.wfFrom lo ((a, b) :: rest) = true ↔
      lo ≤ a ∧ a < 4096 ∧ b ≠ Memory.unlisted ∧ Memory.wfFrom (a + 1) rest = true := by
  simp [Memory.wfFrom, and_assoc]

@[simp] theorem memLookup_cons_self (a : Nat) (b : Byte) (rest : Memory) : memLookup ((a, b) :: rest) a = b := if_pos rfl

theorem memLookup_cons_other {a x : Nat} (b : Byte) (rest : Memory) (h : a ≠ x) :
    memLookup ((a, b) :: rest) x = memLookup rest x := if_neg h

/-- An address that does not read as unlisted is no lower than the bound of the list. -/
theorem le_of_memLookup_ne_unlisted {m : Memory} {lo x : Nat} (h : Memory.wfFrom lo m = true)
    (hx : memLookup m x ≠ Memory.unlisted) : lo ≤ x :=
  Nat.le_of_not_lt fun hlt => hx (memLookup_below h hlt)

/-- The address of the first entry of one store is no lower than that of another store that reads the same. -/
theorem head_le_head {lo lo' a a' : Nat} {b b' : Byte} {rest rest' : Memory}
    (h : Memory.wfFrom lo ((a, b) :: rest) = true) (h' : Memory.wfFrom lo' ((a', b') :: rest') = true)
    (hread : ∀ x, x < 4096 → memLookup ((a, b) :: rest) x = memLookup ((a', b') :: rest') x) : a' ≤ a := by
  obtain ⟨-, ha, hb, -⟩ := wfFrom_cons_iff.mp h
  obtain ⟨-, htail'⟩ := wfFrom_cons_iff.mp h'
  have hlisted : memLookup ((a', b') :: rest') a ≠ Memory.unlisted := by
    rw [← hread a ha, memLookup_cons_self]
    exact hb
  exact le_of_memLookup_ne_unlisted (wfFrom_cons_iff.mpr ⟨Nat.le_refl a', htail'⟩) hlisted

/-- Canonical lists that read the same are equal: their first entries are the lowest address that is not 0x00, and what
follows reads the same. -/
theorem eq_of_memLookup_eq {m m' : Memory} {lo lo' : Nat} (h : Memory.wfFrom lo m = true)
    (h' : Memory.wfFrom lo' m' = true) (hread : ∀ x, x < 4096 → memLookup m x = memLookup m' x) : m = m' := by
  induction m generalizing lo lo' m' with
  | nil =>
    cases m' with
    | nil => rfl
    | cons c' rest' =>
      obtain ⟨a', b'⟩ := c'
      obtain ⟨-, ha', hb', -⟩ := wfFrom_cons_iff.mp h'
      exact absurd (by simpa using (hread a' ha').symm) hb'
  | cons c rest ih =>
    obtain ⟨a, b⟩ := c
    obtain ⟨-, ha, hb, hrest⟩ := wfFrom_cons_iff.mp h
    cases m' with
    | nil => exact absurd (by simpa using hread a ha) hb
    | cons c' rest' =>
      obtain ⟨a', b'⟩ := c'
      obtain rfl : a = a' := Nat.le_antisymm (head_le_head h' h fun x hx => (hread x hx).symm) (head_le_head h h' hread)
      obtain rfl : b = b' := by simpa using hread a ha
      obtain ⟨-, -, -, hrest'⟩ := wfFrom_cons_iff.mp h'
      have htail : ∀ x, x < 4096 → memLookup rest x = memLookup rest' x := fun x hx => by
        by_cases hax : a = x
        · subst hax
          rw [memLookup_below hrest (Nat.lt_succ_self a), memLookup_below hrest' (Nat.lt_succ_self a)]
        · simpa only [memLookup_cons_other _ _ hax] using hread x hx
      rw [ih hrest hrest' htail]

/-! ### Who writes the store -/

theorem memRead_of_mem_eq {s t : State} (h : t.mem = s.mem) (a : Addr) : memRead t a = memRead s a :=
  congrArg (memLookup · a.toNat) h

/-- No accessor write reaches the store, whether it completes or raises. -/
theorem hostWrite_keeps_mem {c : CellName} {v : HostValue} {s t : State} (hl : Leaves (hostWrite c v s) t) :
    t.mem = s.mem := by
  obtain ⟨n, u, -, hset, he⟩ | ⟨n, e, -, -, he⟩ | ⟨x, -, he⟩ := hostWrite_cases c v s
  · rw [he, leaves_next] at hl
    obtain ⟨-, hu⟩ := hostSet_ok_iff.mp hset
    obtain ⟨-, hmem, -⟩ := cellWritten_keeps c n s
    rw [hl, hu, hmem]
  · rw [he, leaves_raise] at hl
    rw [hl, State.logError_mem]
  · simp [he, Leaves] at hl

/-- The host goes on with the store it had if every state the outcome leaves has it. -/
theorem stateAfter_mem {s : State} {o : Result} (ho : ∀ t, Leaves o t → t.mem = s.mem) : (stateAfter s o).mem = s.mem := by
  cases o with
  | next t => exact ho t (.inl rfl)
  | fault f => exact ho f.after (.inr ⟨f, rfl, rfl⟩)
  | refused r => rfl

/-! ### Image loads (R38) -/

theorem imageFits_iff {start : Int} {bytes : List Byte} :
    imageFits start bytes = true ↔
      0 ≤ start ∧ start ≤ 4095 ∧ (bytes = [] ∨ start + bytes.length - 1 ≤ 4095) := by
  simp [imageFits]

/-- An image's byte reads back at its address. -/
theorem memLookup_memInsertBytes_inside {m : Memory} {start k : Nat} {bytes : List Byte} {b : Byte}
    (h : m.wf = true) (hend : start + bytes.length ≤ 4096) (hb : bytes[k]? = some b) :
    memLookup (memInsertBytes m start bytes) (start + k) = b := by
  induction bytes generalizing m start k with
  | nil => simp at hb
  | cons c rest ih =>
    rw [List.length_cons] at hend
    rw [memInsertBytes]
    cases k with
    | zero =>
      rw [memLookup_memInsertBytes_outside _ rest (by omega)]
      obtain rfl : c = b := by simpa using hb
      exact memLookup_memInsert_self h start c
    | succ k =>
      rw [Nat.add_comm k, ← Nat.add_assoc]
      exact ih (wf_memInsert c h (by omega)) (by omega) (by simpa using hb)

/-- What an address reads after an image that fits: the byte of the image that lies there, or what it read before. -/
theorem memLookup_memInsertBytes {m : Memory} {start : Nat} {bytes : List Byte} (h : m.wf = true)
    (hend : start + bytes.length ≤ 4096) (x : Nat) :
    memLookup (memInsertBytes m start bytes) x =
      if start ≤ x then (bytes[x - start]?).getD (memLookup m x) else memLookup m x := by
  split
  case isTrue hle =>
    cases hb : bytes[x - start]? with
    | none =>
      have hlen := List.getElem?_eq_none_iff.mp hb
      exact memLookup_memInsertBytes_outside m bytes (.inr (by omega))
    | some b =>
      rw [← memLookup_memInsertBytes_inside h hend hb, Nat.add_sub_cancel' hle]
      rfl
  case isFalse hlt => exact memLookup_memInsertBytes_outside m bytes (.inl (by omega))

/-- An image that fits ends inside the store. -/
theorem end_le_of_imageFits {start : Int} {bytes : List Byte} (h : imageFits start bytes = true) :
    start.toNat + bytes.length ≤ 4096 := by
  obtain ⟨h0, htop, rfl | hend⟩ := imageFits_iff.mp h
  · rw [List.length_nil]
    omega
  · omega

/-! ### The byte at an address over a session (R44) -/

/-- What a list of moves loads, move by move. -/
theorem lastLoaded_cons (m : HostMove) (rest : List HostMove) (a : Nat) (b : Byte) :
    lastLoaded (m :: rest) a b = lastLoaded rest a (lastLoaded [m] a b) := by
  cases m <;> rfl

/-- One move changes the byte at an address only by an image that fits and covers it. -/
theorem memRead_after_move (m : HostMove) {s : State} (h : s.mem.wf = true) (a : Addr) :
    memRead (stateAfter s (hostMove m s)) a = lastLoaded [m] a.toNat (memRead s a) := by
  cases m with
  | step => exact memRead_of_mem_eq (stateAfter_mem fun _ hl => (step_keeps_host_state hl).1) a
  | write c v => exact memRead_of_mem_eq (stateAfter_mem fun _ hl => hostWrite_keeps_mem hl) a
  | loadImage start bytes =>
    rw [hostMove]
    obtain ⟨hfits, he⟩ | ⟨hfits, v, he⟩ := loadImage_cases start bytes s
    · simp only [he, stateAfter, lastLoaded, hfits, Bool.true_and, decide_eq_true_eq]
      exact memLookup_memInsertBytes h (end_le_of_imageFits hfits) a.toNat
    · simp only [he, lastLoaded, hfits, Bool.false_and, Bool.false_eq_true, if_false]
      rfl

/-- A session changes the byte at an address only by the images that fit and cover it. -/
theorem memRead_hostSession (moves : List HostMove) {s : State} (h : s.wf = true) (a : Addr) :
    memRead (hostSession moves s) a = lastLoaded moves a.toNat (memRead s a) := by
  induction moves generalizing s with
  | nil => rfl
  | cons m rest ih =>
    rw [hostSession, ih (hostMove_keeps_wf h), memRead_after_move m (wf_iff.mp h).1, ← lastLoaded_cons]

/-! ### Jumps within a page (R42) -/

/-- A same-page target lies in the page of the counter. -/
theorem samePageTarget_page (pc : Addr) (low : Byte) : (samePageTarget pc low).toNat / 256 = pc.toNat / 256 := by
  have hlow := low.isLt
  have hpc := pc.isLt
  rw [samePageTarget, BitVec.toNat_append, ← Nat.shiftLeft_add_eq_or_of_lt hlow, Nat.shiftLeft_eq,
    BitVec.extractLsb'_toNat, Nat.shiftRight_eq_div_pow]
  omega

/-- A completed JCN leaves the counter in the page of the address after its operand byte, taken or not. -/
theorem exec_jcn_page {c : Nibble} {s t : State} (h : exec (.jcn c) s = .next t) :
    t.pc.toNat / 256 = (s.pc + 1).toNat / 256 := by
  simp only [exec, execJcn, execJcnWith] at h
  obtain ⟨-, he⟩ | ⟨-, -, he⟩ := fetch8_cases s
    fun b2 u => .next (u.setPc (if jcnCond Config.jcnInit c u then samePageTarget u.pc b2 else u.pc))
  · cases he.symm.trans h
    rw [State.setPc_pc]
    split
    · exact samePageTarget_page _ _
    · rfl
  · exact absurd (he.symm.trans h) (raise_ne_next _ _ _)

/-- A completed JIN leaves the counter in the page it had. -/
theorem exec_jin_page {p : PairIx} {s t : State} (h : exec (.jin p) s = .next t) : t.pc.toNat / 256 = s.pc.toNat / 256 := by
  cases h
  exact samePageTarget_page s.pc (readPair s p)

/-! ### The obligations -/

/-- Settles O17, by induction on the list of moves: each keeps the invariant and loads what `lastLoaded` says of it. -/
theorem fetchReturnsTheLastLoadedByte : Obligations.FetchReturnsTheLastLoadedByte :=
  ⟨fun moves _ a h => memRead_hostSession moves h a,
    fun moves P a => memRead_hostSession moves (constructionIsWellFormed P) a⟩

/-- Settles O16: the three cases are the two tests of `loadImage` and the copy that is left. -/
theorem loadImageIsAllOrNothing : Obligations.LoadImageIsAllOrNothing := by
  intro start bytes s hwf
  refine ⟨fun h0 htop hend => ?_, fun hstart => ?_, fun h0 htop hne hend => ?_⟩
  · have hfits := imageFits_iff.mpr ⟨h0, htop, hend⟩
    obtain ⟨-, he⟩ | ⟨hnot, -⟩ := loadImage_cases start bytes s
    · refine ⟨_, he, rfl, fun a => ⟨fun k b hb hk => ?_, memLookup_memInsertBytes_outside s.mem bytes⟩⟩
      rw [memRead, hk]
      exact memLookup_memInsertBytes_inside hwf (end_le_of_imageFits hfits) hb
    · simp [hfits] at hnot
  · exact ⟨_, if_pos hstart, rfl, rfl⟩
  · have hstart : ¬(start < 0 ∨ start > 4095) := by omega
    have hlong : bytes.length > 0 ∧ start + bytes.length - 1 > 4095 := ⟨List.length_pos_iff.mpr hne, hend⟩
    exact ⟨_, (if_neg hstart).trans (if_pos hlong), rfl, rfl⟩

/-- Settles O18: the lowest address that is not 0x00 heads both lists, and so on down the lists. -/
theorem equalStoresAreEqualLists : Obligations.EqualStoresAreEqualLists :=
  fun _ _ h h' hread => eq_of_memLookup_eq h h' hread

/-- Settles O26: the target's upper nibble is that of the counter past the instruction. -/
theorem jcnAndJinStayInThePageAfterThem : Obligations.JcnAndJinStayInThePageAfterThem := by
  intro s t i hstep hd hi
  have hexec := step_next_exec hstep hd
  obtain ⟨c, rfl⟩ | ⟨p, rfl⟩ := hi
  · rw [exec_jcn_page hexec, State.setPc_pc, BitVec.add_assoc, BitVec.toNat_add]
    rfl
  · rw [exec_jin_page hexec, State.setPc_pc, BitVec.toNat_add]
    rfl

/-- Settles O51: neither an instruction nor the raise of a step writes the store. -/
theorem noInstructionWritesTheStore : Obligations.NoInstructionWritesTheStore := by
  refine ⟨fun i s t hl => ?_, fun s t hl => ?_⟩
  · obtain ⟨hmem, -⟩ := exec_keeps_host_state hl
    exact ⟨memRead_of_mem_eq hmem, hmem⟩
  · obtain ⟨hmem, -⟩ := step_keeps_host_state hl
    exact ⟨memRead_of_mem_eq hmem, hmem⟩

end Sys2Proof.Machine

namespace Sys2Proof

open Machine (highNibble_toNat lowNibble_toNat toNat_append_nibbles)

/-! ## Encoding and the registry (30_encoding.md) -/

/-! ### The fields of an opcode byte (R51, R52) -/

@[simp] theorem highNibble_append (hi lo : Nibble) : highNibble (hi ++ lo) = hi := by
  apply BitVec.eq_of_toNat_eq
  rw [highNibble_toNat, toNat_append_nibbles]
  omega

@[simp] theorem lowNibble_append (hi lo : Nibble) : lowNibble (hi ++ lo) = lo := by
  apply BitVec.eq_of_toNat_eq
  rw [lowNibble_toNat, toNat_append_nibbles]
  omega

theorem regField_val (op : Byte) : (regField op).val = op.toNat % 16 := lowNibble_toNat op

theorem pairField_val (op : Byte) : (pairField op).val = op.toNat / 2 % 8 := by
  simp [pairField, Nat.shiftRight_eq_div_pow]

theorem getLsbD_zero_eq_true_iff {op : Byte} : op.getLsbD 0 = true ↔ op.toNat % 2 = 1 := by
  simp [BitVec.getLsbD, Nat.testBit_zero]

theorem ne_fifteen_iff : ∀ {n : Nibble}, n ≠ 15 ↔ n.toNat < 15 := by decide

/-- The low nibble of a pair instruction's opcode byte: the pair in bits 3:1, and in bit 0 what tells FIM from JIN. -/
def pairNibble (p : PairIx) (b : BitVec 1) : Nibble := BitVec.ofNat 3 p.val ++ b

theorem toNat_pairNibble : ∀ (p : PairIx) (b : BitVec 1), (pairNibble p b).toNat = 2 * p.val + b.toNat := by decide

@[simp] theorem pairField_append (hi : Nibble) (p : PairIx) (b : BitVec 1) : pairField (hi ++ pairNibble p b) = p := by
  apply Fin.ext
  rw [pairField_val, toNat_append_nibbles, toNat_pairNibble]
  omega

theorem getLsbD_zero_append (hi : Nibble) (p : PairIx) (b : BitVec 1) :
    (hi ++ pairNibble p b).getLsbD 0 = true ↔ b.toNat = 1 := by
  rw [getLsbD_zero_eq_true_iff, toNat_append_nibbles, toNat_pairNibble]
  omega

/-! ### The opcode byte of each instruction (R56, R61) -/

theorem encode_fim (p : PairIx) : encode (.fim p) = 0x2#4 ++ pairNibble p 0#1 := rfl

theorem encode_jin (p : PairIx) : encode (.jin p) = 0x3#4 ++ pairNibble p 1#1 := rfl

/-- The opcode byte of each instruction as a number: the map of R56, row by row. -/
def opcodeOf : Instr → Nat
  | .nop => 0x00
  | .jcn c => 0x10 + c.toNat
  | .fim p => 0x20 + 2 * p.val
  | .jin p => 0x31 + 2 * p.val
  | .jun a4 => 0x40 + a4.toNat
  | .jms a4 => 0x50 + a4.toNat
  | .inc r => 0x60 + r.val
  | .add r => 0x80 + r.val
  | .sub r => 0x90 + r.val
  | .ld r => 0xA0 + r.val
  | .xch r => 0xB0 + r.val
  | .bbl d => 0xC0 + d.toNat
  | .ldm d => 0xD0 + d.toNat
  | .clb => 0xF0
  | .clc => 0xF1
  | .iac => 0xF2
  | .dac => 0xF8

theorem toNat_encode (i : Instr) : (encode i).toNat = opcodeOf i := by
  cases i
  case nop | clb | clc | iac | dac => rfl
  case fim p => rw [encode_fim, toNat_append_nibbles, toNat_pairNibble]; rfl
  case jin p => rw [encode_jin, toNat_append_nibbles, toNat_pairNibble]; simp [opcodeOf]; omega
  case inc r | add r | sub r | ld r | xch r => simp [encode, opcodeOf, toNat_append_nibbles]
  case jcn n | jun n | jms n | bbl n | ldm n => exact toNat_append_nibbles _ _

theorem eq_encode_iff {op : Byte} {i : Instr} : op = encode i ↔ op.toNat = opcodeOf i := by
  rw [← BitVec.toNat_inj, toNat_encode]

theorem encode_eq_ofNat (i : Instr) : encode i = BitVec.ofNat 8 (opcodeOf i) := by
  rw [← toNat_encode, BitVec.ofNat_toNat, BitVec.setWidth_eq]

/-! ### What an opcode byte decodes to (R55, R56) -/

theorem decodeJump_eq_some_iff {top : Bool} {op : Byte} {mk : Nibble → Instr} {i : Instr} :
    decodeJump top op mk = some i ↔ (lowNibble op ≠ 15 ∨ top = true) ∧ mk (lowNibble op) = i := by
  cases top <;> simp [decodeJump]

theorem decodeJump_eq_none_iff {top : Bool} {op : Byte} {mk : Nibble → Instr} :
    decodeJump top op mk = none ↔ op.toNat % 16 = 15 ∧ top = false := by
  rw [← lowNibble_toNat]
  simp [decodeJump, ← BitVec.toNat_inj]

theorem decodeFixedF_sound {J : JumpTop} {op : Byte} {i : Instr} (h : decodeFixedF op = some i) :
    i.wellFormed J = true ∧ op.toNat = opcodeOf i := by
  unfold decodeFixedF at h
  split_ifs at h with hop hop hop hop <;> cases h <;> subst hop <;> exact ⟨rfl, rfl⟩

theorem decodeFixedF_eq_none_iff {op : Byte} :
    decodeFixedF op = none ↔ op.toNat ≠ 0xF0 ∧ op.toNat ≠ 0xF1 ∧ op.toNat ≠ 0xF2 ∧ op.toNat ≠ 0xF8 := by
  simp only [decodeFixedF, ← BitVec.toNat_inj]
  split_ifs <;> simp_all

/-- Every instruction that is registered is decoded from its opcode byte. -/
theorem decode_encode {J : JumpTop} {i : Instr} (h : i.wellFormed J = true) : decode J (encode i) = some i := by
  cases i
  case nop | clb | clc | iac | dac => rfl
  case jcn n | jun n | jms n => simpa [decode, encode, decodeJump_eq_some_iff, Instr.wellFormed] using h
  case bbl n | ldm n => simp [decode, encode]
  case inc r | add r | sub r | ld r | xch r => simp [decode, encode, regField]
  case fim p | jin p => simp [decode, encode_fim, encode_jin, getLsbD_zero_append, -BitVec.getLsbD_eq_getElem]

/-- What is decoded is registered, and its row of the map lists the byte. The cases are the arms of `decode`, by the high
nibble: `h_14` is 0xF and `h_15` the rows 0x7 and 0xE. -/
theorem decode_sound {J : JumpTop} {op : Byte} {i : Instr} (h : decode J op = some i) :
    i.wellFormed J = true ∧ op.toNat = opcodeOf i := by
  have hhi := highNibble_toNat op
  unfold decode at h
  split at h
  case h_1 =>
    split_ifs at h with hop
    cases h; subst hop; exact ⟨rfl, rfl⟩
  case h_2 | h_5 | h_6 =>
    obtain ⟨htop, rfl⟩ := decodeJump_eq_some_iff.mp h
    refine ⟨by simpa [Instr.wellFormed] using htop, ?_⟩
    rw [opcodeOf, lowNibble_toNat]; omega
  case h_3 | h_4 =>
    simp only [getLsbD_zero_eq_true_iff] at h
    split_ifs at h
    cases h
    refine ⟨rfl, ?_⟩
    rw [opcodeOf, pairField_val]; omega
  case h_14 => exact decodeFixedF_sound h
  case h_15 => cases h
  all_goals
    cases h
    refine ⟨rfl, ?_⟩
    simp only [opcodeOf, regField_val, lowNibble_toNat]
    omega

/-- Decoding and encoding are inverse on the registered instructions. -/
theorem decode_eq_some_iff {J : JumpTop} {op : Byte} {i : Instr} :
    decode J op = some i ↔ i.wellFormed J = true ∧ op = encode i := by
  refine ⟨fun h => ?_, fun ⟨hwf, hop⟩ => hop ▸ decode_encode hwf⟩
  obtain ⟨hwf, hop⟩ := decode_sound h
  exact ⟨hwf, eq_encode_iff.mpr hop⟩

/-! ### The bytes without a handler (R59) -/

/-- The bytes that the map lists as unregistered, row by row (R56). -/
def Unregistered (J : JumpTop) (n : Nat) : Prop :=
  (0x01 ≤ n ∧ n ≤ 0x0F) ∨ (n = 0x1F ∧ J.jcn = false) ∨
  (0x20 ≤ n ∧ n ≤ 0x2F ∧ n % 2 = 1) ∨ (0x30 ≤ n ∧ n ≤ 0x3F ∧ n % 2 = 0) ∨
  (n = 0x4F ∧ J.jun = false) ∨ (n = 0x5F ∧ J.jms = false) ∨
  (0x70 ≤ n ∧ n ≤ 0x7F) ∨ (0xE0 ≤ n ∧ n ≤ 0xEF) ∨ (0xF3 ≤ n ∧ n ≤ 0xF7) ∨ (0xF9 ≤ n)

/-- A byte without a handler lies in an unregistered row: each arm of `decode` that can give none, with its row. -/
theorem unregistered_of_decode_eq_none {J : JumpTop} {op : Byte} (h : decode J op = none) : Unregistered J op.toNat := by
  have hhi := highNibble_toNat op
  unfold decode at h
  split at h
  case h_1 =>
    split_ifs at h with h0
    have hne : op.toNat ≠ 0 := fun h => h0 (BitVec.eq_of_toNat_eq h)
    exact .inl (by omega)
  case h_2 =>
    obtain ⟨h15, htop⟩ := decodeJump_eq_none_iff.mp h
    exact .inr (.inl ⟨by omega, htop⟩)
  case h_3 =>
    simp only [getLsbD_zero_eq_true_iff] at h
    split_ifs at h
    exact .inr (.inr (.inl (by omega)))
  case h_4 =>
    simp only [getLsbD_zero_eq_true_iff] at h
    split_ifs at h
    exact .inr (.inr (.inr (.inl (by omega))))
  case h_5 =>
    obtain ⟨h15, htop⟩ := decodeJump_eq_none_iff.mp h
    exact .inr (.inr (.inr (.inr (.inl ⟨by omega, htop⟩))))
  case h_6 =>
    obtain ⟨h15, htop⟩ := decodeJump_eq_none_iff.mp h
    exact .inr (.inr (.inr (.inr (.inr (.inl ⟨by omega, htop⟩)))))
  case h_14 =>
    have hne := decodeFixedF_eq_none_iff.mp h
    iterate 8 right
    omega
  case h_15 =>
    simp only [imp_false] at *
    iterate 6 right
    omega
  all_goals cases h

/-- No registered instruction has its opcode byte in an unregistered row. -/
theorem not_unregistered_opcodeOf {J : JumpTop} {i : Instr} (hwf : i.wellFormed J = true) :
    ¬Unregistered J (opcodeOf i) := by
  intro h
  rw [Unregistered] at h
  cases i
  case jcn | jun | jms =>
    simp only [Instr.wellFormed, Bool.or_eq_true, bne_iff_ne, ne_fifteen_iff] at hwf
    obtain hlow | htop := hwf
    · simp only [opcodeOf] at h
      omega
    · simp only [opcodeOf, htop, Bool.true_eq_false, and_false, false_or] at h
      omega
  all_goals simp only [opcodeOf] at h; omega

theorem decode_eq_none_iff {J : JumpTop} {op : Byte} : decode J op = none ↔ Unregistered J op.toNat := by
  refine ⟨unregistered_of_decode_eq_none, fun h => Option.eq_none_iff_forall_ne_some.mpr fun i hdecode => ?_⟩
  obtain ⟨hwf, hop⟩ := decode_sound hdecode
  exact not_unregistered_opcodeOf hwf (hop ▸ h)

/-! ### Reading one instruction from a byte list (R50, R53) -/

/-- All that `decodeBytes` can accept: a registered opcode byte, with an operand byte after it where it has one. -/
theorem decodeBytes_ok_cases {J : JumpTop} {bytes : List Byte} {d : Decoded} (h : decodeBytes J bytes = .ok d) :
    d.instr.wellFormed J = true ∧
      ((d.instr.hasOperandByte = false ∧ d.operand = none ∧ bytes = encode d.instr :: d.rest) ∨
       ∃ b2, d.instr.hasOperandByte = true ∧ d.operand = some b2 ∧ bytes = encode d.instr :: b2 :: d.rest) := by
  unfold decodeBytes at h
  split at h
  · cases h
  split at h
  · cases h
  rename_i op tail _ i hdecode
  obtain ⟨hwf, rfl⟩ := decode_eq_some_iff.mp hdecode
  split at h <;> cases h
  case h_1 hlen => exact ⟨hwf, .inl ⟨hlen, rfl, rfl⟩⟩
  case h_2 b2 rest hlen => exact ⟨hwf, .inr ⟨b2, hlen, rfl, rfl⟩⟩

/-! ### The registry's operations (R54) -/

theorem registryLookup_cons (b op : Byte) (h : Instr) (g : Registry) :
    registryLookup ((b, h) :: g) op = if b = op then some h else registryLookup g op := rfl

theorem registryLookup_eq_none_iff {g : Registry} {op : Byte} : registryLookup g op = none ↔ op ∉ g.map Prod.fst := by
  induction g with
  | nil => simp [registryLookup]
  | cons x g ih =>
    obtain ⟨b, h⟩ := x
    rw [registryLookup_cons, List.map_cons, List.mem_cons, not_or, ← ih]
    split_ifs with hb <;> simp [hb, Ne.symm]

/-- Where no byte is bound twice, the lookup finds the binding in the list. -/
theorem registryLookup_eq_some_iff {g : Registry} (hg : (g.map Prod.fst).Nodup) {op : Byte} {h : Instr} :
    registryLookup g op = some h ↔ (op, h) ∈ g := by
  induction g with
  | nil => simp [registryLookup]
  | cons x g ih =>
    obtain ⟨b, h'⟩ := x
    obtain ⟨hb, hg⟩ := List.nodup_cons.mp hg
    rw [registryLookup_cons, List.mem_cons, ← ih hg]
    split_ifs with hop
    · subst hop
      simp [registryLookup_eq_none_iff.mpr hb, eq_comm]
    · simp [Ne.symm hop]

theorem registryRegister_of_unbound {g : Registry} {op : Byte} (h : Instr) (hop : registryLookup g op = none) :
    registryRegister g op h = .ok ((op, h) :: g) := by
  simp [registryRegister, hop]

/-- Bindings of different bytes are registered without a collision, one on top of the other. -/
theorem registryRegisterAll_of_nodup {bs g : Registry} (h : ((bs.reverse ++ g).map Prod.fst).Nodup) :
    registryRegisterAll g bs = .ok (bs.reverse ++ g) := by
  induction bs generalizing g with
  | nil => rfl
  | cons x bs ih =>
    obtain ⟨op, i⟩ := x
    rw [List.reverse_cons, List.append_assoc, List.singleton_append] at h ⊢
    have hunbound : registryLookup g op = none := by
      rw [List.map_append, List.map_cons] at h
      exact registryLookup_eq_none_iff.mpr (List.nodup_cons.mp h.of_append_right).1
    rw [registryRegisterAll, registryRegister_of_unbound i hunbound]
    exact ih h

/-! ### No two rows of the map share a byte (R60) -/

/-- The bindings' bytes rise strictly and lie in `[lo, hi)`. -/
def RisesWithin (lo hi : Nat) (bs : Registry) : Prop :=
  bs.Pairwise (fun x y => x.1.toNat < y.1.toNat) ∧ ∀ x ∈ bs, lo ≤ x.1.toNat ∧ x.1.toNat < hi

theorem RisesWithin.append {lo mid mid' hi : Nat} {xs ys : Registry} (hx : RisesWithin lo mid xs)
    (hy : RisesWithin mid' hi ys) (hlo : lo ≤ mid' := by decide) (hmid : mid ≤ mid' := by decide)
    (hhi : mid ≤ hi := by decide) : RisesWithin lo hi (xs ++ ys) := by
  obtain ⟨hxrise, hxin⟩ := hx
  obtain ⟨hyrise, hyin⟩ := hy
  refine ⟨List.pairwise_append.mpr ⟨hxrise, hyrise, fun x hx y hy => ?_⟩, fun x hx => ?_⟩
  · have := hxin x hx; have := hyin y hy; omega
  · obtain hx | hx := List.mem_append.mp hx
    · have := hxin x hx; omega
    · have := hyin x hx; omega

theorem risesWithin_map {α : Type} {lo hi : Nat} {l : List α} {f : α → Nat} (mk : α → Instr)
    (hrise : l.Pairwise fun x y => f x < f y) (hin : ∀ x ∈ l, lo ≤ f x ∧ f x < hi) (hhi : hi ≤ 256) :
    RisesWithin lo hi (l.map fun x => (BitVec.ofNat 8 (f x), mk x)) := by
  have hval : ∀ x ∈ l, (BitVec.ofNat 8 (f x)).toNat = f x := fun x hx =>
    Nat.mod_eq_of_lt (by have := hin x hx; omega)
  refine ⟨List.pairwise_map.mpr (hrise.imp_of_mem fun hx hy h => ?_), fun y hy => ?_⟩
  · simpa only [hval _ hx, hval _ hy] using h
  · obtain ⟨x, hx, rfl⟩ := List.mem_map.mp hy
    simpa only [hval x hx] using hin x hx

theorem nibbleFamily_rises {base size : Nat} (mk : Nibble → Instr) (hsize : size ≤ 16)
    (hbase : base ≤ 240 := by decide) : RisesWithin base (base + 16) (nibbleFamily base size mk) :=
  risesWithin_map _ (List.pairwise_lt_range.imp (by omega))
    (fun k hk => by have := List.mem_range.mp hk; omega) (by omega)

theorem regFamily_rises {base : Nat} (mk : RegIx → Instr) (hbase : base ≤ 240 := by decide) :
    RisesWithin base (base + 16) (regFamily base mk) :=
  risesWithin_map _ ((List.pairwise_lt_finRange 16).imp (by omega)) (fun r _ => by omega) (by omega)

theorem pairFamily_rises {base : Nat} (mk : PairIx → Instr) (hbase : base ≤ 240 := by decide) :
    RisesWithin base (base + 15) (pairFamily base mk) :=
  risesWithin_map _ ((List.pairwise_lt_finRange 8).imp (by omega)) (fun p _ => by omega) (by omega)

theorem jumpFamilySize_le : ∀ top : Bool, jumpFamilySize top ≤ 16 := by decide

/-- The rows of the map, in the order in which construction registers them, go up. -/
theorem registrations_rise (J : JumpTop) : RisesWithin 0x00 0x100 (registrations J) := by
  have hnop : RisesWithin 0x00 0x10 [(0x00, .nop)] := by unfold RisesWithin; decide
  have hfixed : RisesWithin 0xF0 0x100 [(0xF0, .clb), (0xF1, .clc), (0xF2, .iac), (0xF8, .dac)] := by
    unfold RisesWithin; decide
  exact hnop.append (nibbleFamily_rises .jcn (jumpFamilySize_le J.jcn)) |>.append (pairFamily_rises .fim)
    |>.append (pairFamily_rises .jin) |>.append (nibbleFamily_rises .jun (jumpFamilySize_le J.jun))
    |>.append (nibbleFamily_rises .jms (jumpFamilySize_le J.jms)) |>.append (regFamily_rises .inc)
    |>.append (regFamily_rises .add) |>.append (regFamily_rises .sub) |>.append (regFamily_rises .ld)
    |>.append (regFamily_rises .xch) |>.append (nibbleFamily_rises .bbl le_rfl)
    |>.append (nibbleFamily_rises .ldm le_rfl) |>.append hfixed

theorem registrations_keys_nodup (J : JumpTop) : ((registrations J).map fun x => x.1.toNat).Nodup := by
  obtain ⟨hrise, -⟩ := registrations_rise J
  exact List.pairwise_map.mpr (hrise.imp Nat.ne_of_lt)

/-! ### What construction registers (R55 to R57) -/

theorem mem_nibbleFamily {base size : Nat} {mk : Nibble → Instr} {op : Byte} {i : Instr} (hsize : size ≤ 16) :
    (op, i) ∈ nibbleFamily base size mk ↔
      ∃ n : Nibble, n.toNat < size ∧ op = BitVec.ofNat 8 (base + n.toNat) ∧ i = mk n := by
  simp only [nibbleFamily, List.mem_map, List.mem_range, Prod.mk.injEq]
  constructor
  · rintro ⟨k, hk, rfl, rfl⟩
    have hval : (BitVec.ofNat 4 k).toNat = k := Nat.mod_eq_of_lt (by omega)
    exact ⟨BitVec.ofNat 4 k, by rwa [hval], by rw [hval], rfl⟩
  · rintro ⟨n, hn, rfl, rfl⟩
    exact ⟨n.toNat, hn, rfl, by simp⟩

theorem mem_regFamily {base : Nat} {mk : RegIx → Instr} {op : Byte} {i : Instr} :
    (op, i) ∈ regFamily base mk ↔ ∃ r : RegIx, op = BitVec.ofNat 8 (base + r.val) ∧ i = mk r := by
  simp [regFamily, eq_comm]

theorem mem_pairFamily {base : Nat} {mk : PairIx → Instr} {op : Byte} {i : Instr} :
    (op, i) ∈ pairFamily base mk ↔ ∃ p : PairIx, op = BitVec.ofNat 8 (base + 2 * p.val) ∧ i = mk p := by
  simp [pairFamily, eq_comm]

theorem lt_jumpFamilySize_iff : ∀ {top : Bool} {n : Nibble}, n.toNat < jumpFamilySize top ↔ n ≠ 15 ∨ top = true := by
  decide

/-- Construction registers each registered instruction at its own opcode byte, and nothing else. -/
theorem mem_registrations_iff {J : JumpTop} {op : Byte} {i : Instr} :
    (op, i) ∈ registrations J ↔ i.wellFormed J = true ∧ op = encode i := by
  rw [encode_eq_ofNat]
  cases i <;> simp [registrations, mem_nibbleFamily, jumpFamilySize_le, mem_regFamily, mem_pairFamily,
    lt_jumpFamilySize_iff, opcodeOf, Instr.wellFormed, BitVec.isLt _]

theorem registryBuild_keys_nodup (J : JumpTop) : ((registrations J).reverse.map Prod.fst).Nodup := by
  rw [List.map_reverse, List.nodup_reverse]
  exact List.Nodup.of_map BitVec.toNat (by rw [List.map_map]; exact registrations_keys_nodup J)

/-- Building the registry raises no collision (R60). -/
theorem registryBuild_eq (J : JumpTop) : registryBuild J = .ok (registrations J).reverse := by
  have hnodup := registryBuild_keys_nodup J
  rw [← List.append_nil (registrations J).reverse] at hnodup ⊢
  exact registryRegisterAll_of_nodup hnodup

theorem length_registrations (J : JumpTop) :
    (registrations J).length = 178 + J.jcn.toNat + J.jun.toNat + J.jms.toNat := by
  have hsize : ∀ top, jumpFamilySize top = 15 + top.toNat := by decide
  simp [registrations, nibbleFamily, regFamily, pairFamily, hsize]
  omega

/-- The bytes that have a handler are the keys of the bindings. -/
theorem mem_registered_iff {J : JumpTop} {n : Nat} :
    n ∈ (List.range 256).filter (fun n => (decode J (BitVec.ofNat 8 n)).isSome) ↔
      n ∈ (registrations J).map fun x => x.1.toNat := by
  simp only [List.mem_filter, List.mem_range, Option.isSome_iff_exists, List.mem_map, Prod.exists, decode_eq_some_iff,
    mem_registrations_iff]
  constructor
  · rintro ⟨hn, i, h⟩
    exact ⟨_, i, h, Nat.mod_eq_of_lt hn⟩
  · rintro ⟨op, i, h, rfl⟩
    exact ⟨op.isLt, i, by simpa using h⟩

/-! ### The obligations of 30_encoding.md -/

/-- Settles O4: the opcode byte decodes to the instruction, which says alone whether the next byte is its operand. -/
theorem decodeOfEncodeIsTheInstruction : Obligations.DecodeOfEncodeIsTheInstruction := by
  intro J i b2 rest hwf
  cases hlen : i.hasOperandByte <;> simp [encodeBytes, decodeBytes, decode_encode hwf, hlen]

/-- Settles O1: a byte decodes to a registered instruction exactly if it is its opcode byte, whose number is `opcodeOf`. -/
theorem decodeIsTheOpcodeMap : Obligations.DecodeIsTheOpcodeMap := by
  intro J op
  simp [decode_eq_some_iff, eq_encode_iff, opcodeOf, Instr.wellFormed, and_comm]

/-- Settles O2: one way by the arms of `decode` that give none, the other way by the opcode bytes. -/
theorem unregisteredBytesAreTheListedOnes : Obligations.UnregisteredBytesAreTheListedOnes :=
  fun _ _ => decode_eq_none_iff

/-- Settles O5: the two ways in which `decodeBytes` accepts. -/
theorem encodeOfDecodeIsTheBytes : Obligations.EncodeOfDecodeIsTheBytes := by
  intro J bytes d h
  obtain ⟨hwf, ⟨hlen, hoperand, rfl⟩ | ⟨b2, hlen, hoperand, rfl⟩⟩ := decodeBytes_ok_cases h
  · exact ⟨hwf, by simp [hlen, hoperand], by simp [encodeBytes, hlen], by simp [Instr.length, hlen]; omega⟩
  · exact ⟨hwf, by simp [hlen, hoperand], by simp [encodeBytes, hlen, hoperand], by simp [Instr.length, hlen]; omega⟩

/-- Settles O6: the registry's bindings are the pairs of a registered instruction and its opcode byte, as `decode`'s are. -/
theorem registryLookupIsDecode : Obligations.RegistryLookupIsDecode := by
  refine fun J => ⟨_, registryBuild_eq J, fun op => Option.ext fun i => ?_⟩
  rw [registryLookup_eq_some_iff (registryBuild_keys_nodup J), List.mem_reverse, mem_registrations_iff, decode_eq_some_iff]

/-- Settles O3: the bytes that have a handler are the keys of the bindings, no key twice, so they are as many. -/
theorem registeredByteCount : Obligations.RegisteredByteCount := by
  intro J
  have hperm := (List.perm_ext_iff_of_nodup (List.nodup_range.filter _) (registrations_keys_nodup J)).mpr
    fun _ => mem_registered_iff
  rw [hperm.length_eq, List.length_map, length_registrations]

/-- Settles O7: the new binding stands in front of the others. -/
theorem registerBindsOnceOrCollides : Obligations.RegisterBindsOnceOrCollides := by
  refine fun g op h => ⟨fun hbound => ?_, fun hfree => ⟨_, registryRegister_of_unbound h hfree, if_pos rfl, ?_⟩⟩
  · simp [registryRegister, Option.isSome_iff_ne_none, hbound]
  · exact fun b hb => if_neg (Ne.symm hb)

/-- Settles O8: nine closed instances of `decode`. -/
theorem writtenOutWordsDecode : Obligations.WrittenOutWordsDecode := by
  unfold Obligations.WrittenOutWordsDecode
  decide

end Sys2Proof

namespace Sys2Proof.Machine

open Sys2Proof.Safety

/-! ## The engine (40_engine.md) -/

/-! ### The advance of the program counter and the errors it raises (R65) -/

theorem not_canAdvance_iff {s : State} : ¬CanAdvance s ↔ s.params.pcOverflow = .fault ∧ s.pc = 4095 := by
  unfold CanAdvance
  cases s.params.pcOverflow <;> simp

/-- A raise gives one fault only. -/
theorem raise_eq_fault_iff {e : ErrorInfo} {s : State} {f : Fault} :
    raise e s = .fault f ↔ f = faultOf e (s.logError e) := by
  simp [raise, eq_comm]

/-- A raise changes no cell: it only logs its error. -/
theorem raise_changes_no_cell (e : ErrorInfo) (s : State) :
    ∃ f, raise e s = .fault f ∧ f.info = e ∧ f.after = { s with faultLog := f.after.faultLog } := by
  refine ⟨_, rfl, faultOf_info e _, ?_⟩
  rw [faultOf_after]
  rfl

/-! ### What a step does at the opcode byte (R63, R67) -/

/-- The engine's own advance raises before any lookup. -/
theorem step_raise_at_top {s : State} (hf : s.params.pcOverflow = .fault) (hpc : s.pc = 4095) :
    step s = raise (.rangeError (.cell .pc) 4096) s := fetch8_raise hf hpc _

theorem step_eq_exec {s : State} {i : Instr} (h : CanAdvance s)
    (hd : decode s.params.jumpTop (memRead s s.pc) = some i) : step s = exec i (s.setPc (s.pc + 1)) := by
  rw [step, fetch8_next h, State.setPc_params, hd]

/-! ### The errors of an instruction (R68, R91) -/

/-- A two-byte handler fetches its operand byte first, and then completes. -/
theorem exec_eq_fetch8 {i : Instr} (h : i.hasOperandByte = true) (s : State) :
    ∃ g : Byte → State → State, exec i s = fetch8 s fun b t => .next (g b t) := by
  cases i with
  | jcn c => exact ⟨fun b t => t.setPc (if jcnCond Config.jcnInit c t then samePageTarget t.pc b else t.pc), rfl⟩
  | fim p => exact ⟨fun b t => writePair t p b, rfl⟩
  | jun a4 => exact ⟨fun b t => t.setPc (absoluteTarget a4 b), rfl⟩
  | jms a4 => exact ⟨fun b t => (push t.pc t).setPc (absoluteTarget a4 b), rfl⟩
  | nop | jin _ | inc _ | add _ | sub _ | ld _ | xch _ | bbl _ | ldm _ | clb | clc | iac | dac => cases h

/-- Of the one-byte instructions, only IAC can raise. -/
theorem exec_completes {i : Instr} (h : i.hasOperandByte = false) (hi : i ≠ .iac) (s : State) :
    ∃ t, exec i s = .next t := by
  cases i with
  | jcn _ | fim _ | jun _ | jms _ => cases h
  | iac => exact absurd rfl hi
  | nop | jin _ | inc _ | add _ | sub _ | ld _ | xch _ | bbl _ | ldm _ | clb | clc | dac => exact ⟨_, rfl⟩

theorem execIac_raise {s : State} (h : s.acc = 15) : execIac s = raise (.rangeError (.cell .acc) 16) s := by
  have hmax : s.acc.toNat + 1 = 2 ^ 4 := by rw [h]; decide
  unfold execIac
  rw [cellIncrement_error .acc hmax]
  norm_num

theorem execIac_next {s : State} (h : s.acc ≠ 15) : execIac s = .next (s.setAcc (s.acc + 1)) := by
  have hlt : s.acc.toNat + 1 < 2 ^ 4 := by
    have := ne_fifteen_iff.mp h
    omega
  unfold execIac
  rw [cellIncrement_ok .acc hlt]

/-- The errors of an instruction: a two-byte handler's in its operand fetch, and that of IAC at 15. -/
theorem exec_fault_iff {i : Instr} {s : State} {f : Fault} :
    exec i s = .fault f ↔
      (i.hasOperandByte = true ∧ ¬CanAdvance s ∧
        f = .rangeError (.cell .pc) 4096 (s.logError (.rangeError (.cell .pc) 4096))) ∨
      (i = .iac ∧ s.acc = 15 ∧ f = .rangeError (.cell .acc) 16 (s.logError (.rangeError (.cell .acc) 16))) := by
  cases hop : i.hasOperandByte with
  | true =>
    have hi : i ≠ .iac := by rintro rfl; cases hop
    obtain ⟨g, hg⟩ := exec_eq_fetch8 hop s
    by_cases hadv : CanAdvance s
    · simp [hg, fetch8_next hadv, hadv, hi]
    · obtain ⟨hf, hpc⟩ := not_canAdvance_iff.mp hadv
      simp [hg, fetch8_raise hf hpc, raise_eq_fault_iff, faultOf, hadv, hi]
  | false =>
    by_cases hi : i = .iac
    · subst hi
      by_cases hacc : s.acc = 15
      · simp [exec, execIac_raise hacc, raise_eq_fault_iff, faultOf, hacc]
      · simp only [exec, execIac_next hacc, hacc, reduceCtorEq, false_and, and_false, or_false]
    · obtain ⟨t, ht⟩ := exec_completes hop hi s
      simp [ht, hi]

theorem exec_next_or_fault (i : Instr) (s : State) : (∃ t, exec i s = .next t) ∨ ∃ f, exec i s = .fault f := by
  obtain ⟨t, ht, -⟩ | ⟨e, he⟩ := exec_cases i s
  · exact .inl ⟨t, ht⟩
  · exact .inr ⟨_, he⟩

theorem step_next_or_fault (s : State) : (∃ t, step s = .next t) ∨ ∃ f, step s = .fault f := by
  obtain ⟨-, -, he⟩ | ⟨-, -, he⟩ | ⟨i, -, -, he⟩ := step_cases s
  · exact .inr ⟨_, he⟩
  · exact .inr ⟨_, he⟩
  · rw [he]
    exact exec_next_or_fault i _

/-! ### The errors of a step (R70, R99) -/

theorem decode_iac_iff {J : JumpTop} {op : Byte} : decode J op = some .iac ↔ op = 0xF2 := by
  rw [decode_eq_some_iff]
  exact and_iff_right rfl

/-- The operand byte is at 4095 exactly where the opcode byte is at 4094. -/
theorem not_canAdvance_setPc_add_one_iff {s : State} :
    ¬CanAdvance (s.setPc (s.pc + 1)) ↔ s.params.pcOverflow = .fault ∧ s.pc = 4094 := by
  have hpc : s.pc + 1 = 4095 ↔ s.pc = 4094 := by bv_omega
  rw [not_canAdvance_iff, State.setPc_params, State.setPc_pc, hpc]

/-! ### The obligations of 40_engine.md -/

/-- Settles O23: the cases of `step_cases` exclude each other, and in the last one the errors are the instruction's. -/
theorem stepErrorsAreExactlyTheFour : Obligations.StepErrorsAreExactlyTheFour := by
  refine fun s => ⟨fun f => ?_, step_next_or_fault s⟩
  obtain ⟨hf, hpc, he⟩ | ⟨hadv, hd, he⟩ | ⟨i, hadv, hd, he⟩ := step_cases s
  · have hadv : ¬CanAdvance s := not_canAdvance_iff.mpr ⟨hf, hpc⟩
    simp [he, raise_eq_fault_iff, faultOf, State.logError, hadv, hf, hpc]
  · have htop : ¬(s.params.pcOverflow = .fault ∧ s.pc = 4095) := fun h => not_canAdvance_iff.mpr h hadv
    have hop : memRead s s.pc ≠ 0xF2 := fun h => by simp [decode_iac_iff.mpr h] at hd
    rw [he, raise_eq_fault_iff]
    simp only [hadv, hd, hop, ← and_assoc, htop, reduceCtorEq, true_and, false_and, and_false, exists_false, false_or,
      or_false]
    rfl
  · rw [he, exec_fault_iff, not_canAdvance_setPc_add_one_iff]
    constructor
    · rintro (⟨hop, ⟨hf, hpc⟩, rfl⟩ | ⟨rfl, hacc, rfl⟩)
      · exact .inr (.inr (.inl ⟨hf, hpc, ⟨i, hd, hop⟩, by rw [hpc]; rfl⟩))
      · exact .inr (.inr (.inr ⟨hadv, decode_iac_iff.mp hd, hacc, rfl⟩))
    · rintro (⟨hf, hpc, -⟩ | ⟨-, hnone, -⟩ | ⟨hf, hpc, ⟨j, hj, hop⟩, rfl⟩ | ⟨-, hop, hacc, rfl⟩)
      · exact absurd hadv (not_canAdvance_iff.mpr ⟨hf, hpc⟩)
      · simp [hd] at hnone
      · obtain rfl : i = j := Option.some.inj (hd.symm.trans hj)
        exact .inl ⟨hop, ⟨hf, hpc⟩, by rw [hpc]; rfl⟩
      · obtain rfl : i = .iac := Option.some.inj (hd.symm.trans (decode_iac_iff.mpr hop))
        exact .inr ⟨rfl, hacc, rfl⟩

/-- Settles O19: below the top both readings add 1, which wraps only at 4095. -/
theorem advanceWrapsOrFaultsAtTheTop : Obligations.AdvanceWrapsOrFaultsAtTheTop := by
  refine fun s => ⟨fun hw => ?_, fun _ hpc => ?_, fun hf hpc => ?_⟩
  · exact ⟨_, advancePc_next (.inl hw), rfl, BitVec.toNat_add s.pc 1⟩
  · have hlt : (s.pc + 1).toNat = s.pc.toNat + 1 := by bv_omega
    exact ⟨_, advancePc_next (.inr hpc), rfl, hlt⟩
  · rw [advancePc_raise hf hpc]
    exact raise_changes_no_cell _ s

/-- Settles O20: the opcode fetch hands the byte at the counter and the advanced state to the lookup. -/
theorem stepRunsTheDecodedInstruction : Obligations.StepRunsTheDecodedInstruction :=
  fun _ _ h hd => step_eq_exec h hd

/-- Settles O22: such a handler is its operand fetch, whose advance raises. -/
theorem operandFetchAtTheTopRaises : Obligations.OperandFetchAtTheTopRaises := by
  intro i s hop hf hpc
  obtain ⟨g, hg⟩ := exec_eq_fetch8 hop s
  rw [hg, fetch8_raise hf hpc]
  exact raise_changes_no_cell _ s

/-- Settles O24: `stepReturning` adds the byte at the counter to a next state and passes an error on. -/
theorem stepReturnsTheOpcodeByte : Obligations.StepReturnsTheOpcodeByte :=
  fun _ => ⟨fun _ h => by rw [stepReturning, h], fun _ h => by rw [stepReturning, h]⟩

/-- Settles O28: the byte 0x00 decodes to NOP, whose handler does nothing. -/
theorem nopOnlyAdvancesThePc : Obligations.NopOnlyAdvancesThePc := by
  refine fun s => ⟨rfl, fun _ => rfl, fun hop hadv => ?_, fun _ hf hpc => ?_⟩
  · exact step_eq_exec (i := .nop) hadv (by rw [hop]; rfl)
  · rw [step_raise_at_top hf hpc]
    exact raise_changes_no_cell _ s

end Sys2Proof.Machine

namespace Sys2Proof.Machine

open Sys2Proof.Safety

/-! ## Control transfer (41_control.md) -/

/-! ### Jump targets as numbers (00_scope.md R12, 20_memory.md R39) -/

/-- Joining four bits and a byte puts the four bits above the byte. -/
theorem toNat_append_byte (hi : Nibble) (lo : Byte) : (hi ++ lo).toNat = 256 * hi.toNat + lo.toNat := by
  rw [BitVec.toNat_append, ← Nat.shiftLeft_add_eq_or_of_lt lo.isLt, Nat.shiftLeft_eq]
  omega

theorem absoluteTarget_toNat (a4 : Nibble) (low : Byte) :
    (absoluteTarget a4 low).toNat = 256 * a4.toNat + low.toNat := toNat_append_byte a4 low

theorem samePageTarget_toNat (pc : Addr) (low : Byte) :
    (samePageTarget pc low).toNat = pc.toNat / 256 * 256 + low.toNat := by
  have hpage := samePageTarget_page pc low
  have hlow : (samePageTarget pc low).toNat = 256 * (pc.extractLsb' 8 4).toNat + low.toNat := toNat_append_byte _ low
  have := low.isLt
  omega

theorem toNat_add_one (a : Addr) : (a + 1).toNat = (a.toNat + 1) % 4096 := BitVec.toNat_add a 1

/-! ### The opcode byte of an instruction, registered or not (30_encoding.md R56, R58) -/

/-- Every top encoding is registered. -/
def allTopsRegistered : JumpTop where
  jcn := true
  jun := true
  jms := true

theorem wellFormed_allTopsRegistered (i : Instr) : i.wellFormed allTopsRegistered = true := by
  cases i with
  | jcn _ | jun _ | jms _ => exact Bool.or_true _
  | nop | fim _ | jin _ | inc _ | add _ | sub _ | ld _ | xch _ | bbl _ | ldm _ | clb | clc | iac | dac => rfl

/-- No two instructions share an opcode byte, the top encodings included: where all of them are registered, `decode`
tells them apart. -/
theorem encode_injective : Function.Injective encode := by
  intro i j h
  have hall : ∀ k, decode allTopsRegistered (encode k) = some k := fun k =>
    decode_encode (wellFormed_allTopsRegistered k)
  exact Option.some.inj ((hall i).symm.trans (h ▸ hall j))

theorem decode_encode_eq_ite (J : JumpTop) (i : Instr) :
    decode J (encode i) = if i.wellFormed J = true then some i else none := by
  split_ifs with hwf
  · exact decode_encode hwf
  · refine Option.eq_none_iff_forall_ne_some.mpr fun j hj => hwf ?_
    obtain ⟨hjwf, hbyte⟩ := decode_eq_some_iff.mp hj
    exact encode_injective hbyte ▸ hjwf

/-- The opcode byte of a two-byte jump with low nibble `n` decodes to it unless it is a top encoding that is not
registered. -/
theorem decode_jump_of_toNat {J : JumpTop} {op : Byte} {i : Instr} {n : Nibble} {top : Bool}
    (hwf : i.wellFormed J = (n != 15 || top)) (hop : op.toNat = opcodeOf i) :
    decode J op = if n = 15 ∧ top = false then none else some i := by
  rw [eq_encode_iff.mpr hop, decode_encode_eq_ite, hwf]
  by_cases hn : n = 15 <;> cases top <;> simp [hn]

/-- The opcode byte of an instruction that every registry holds decodes to it. -/
theorem decode_of_toNat {J : JumpTop} {op : Byte} {i : Instr} (hwf : i.wellFormed J = true)
    (hop : op.toNat = opcodeOf i) : decode J op = some i :=
  decode_eq_some_iff.mpr ⟨hwf, eq_encode_iff.mpr hop⟩

/-! ### What each handler does where its operand fetch can advance -/

theorem exec_jcn_next (c : Nibble) {s : State} (h : CanAdvance s) :
    exec (.jcn c) s = .next (s.setPc
      (if jcnCond Config.jcnInit c s then samePageTarget (s.pc + 1) (memRead s s.pc) else s.pc + 1)) := by
  rw [exec, execJcn, execJcnWith, fetch8_next h]
  rfl

theorem exec_jun_next (a4 : Nibble) {s : State} (h : CanAdvance s) :
    exec (.jun a4) s = .next (s.setPc (absoluteTarget a4 (memRead s s.pc))) := by
  rw [exec, execJun, fetch8_next h]
  rfl

theorem exec_jms_next (a4 : Nibble) {s : State} (h : CanAdvance s) :
    exec (.jms a4) s = .next ((push (s.pc + 1) s).setPc (absoluteTarget a4 (memRead s s.pc))) := by
  rw [exec, execJms, fetch8_next h]
  rfl

/-- A completed JMS could advance, so it pushed and jumped. -/
theorem eq_of_exec_jms_next {a4 : Nibble} {s t : State} (h : exec (.jms a4) s = .next t) :
    t = (push (s.pc + 1) s).setPc (absoluteTarget a4 (memRead s s.pc)) := by
  by_cases hadv : CanAdvance s
  · rw [exec_jms_next a4 hadv] at h
    cases h
    rfl
  · obtain ⟨hf, hpc⟩ := not_canAdvance_iff.mp hadv
    obtain ⟨f, he, -⟩ := operandFetchAtTheTopRaises (.jms a4) s rfl hf hpc
    rw [he] at h
    cases h

/-! ### A pop after a push (10_state.md R22, R23) -/

/-- A pop depends on the slots and the cursor only. -/
theorem popValue_congr {s u : State} (hstack : u.stack = s.stack) (hsp : u.sp = s.sp) : popValue u = popValue s := by
  simp only [popValue, poppedSp, hstack, hsp]

theorem poppedSp_push (a : Addr) (s : State) : poppedSp (push a s) = s.sp := cursor_add_sub s.sp

theorem popValue_push (a : Addr) (s : State) : popValue (push a s) = a := stack_push_self a (poppedSp_push a s)

/-! ### The obligations of 41_control.md -/

/-- Settles O30: where the advance succeeds the handler chooses between the two addresses by its condition, and where it
does not it is a two-byte handler whose operand fetch raises. -/
theorem jcnReplacesTheLowByteIfTaken : Obligations.JcnReplacesTheLowByteIfTaken := by
  refine fun c s => ⟨fun J op hop => decode_jump_of_toNat rfl hop, fun hadv => ?_, fun hadv => ?_⟩
  · refine ⟨_, exec_jcn_next c hadv, rfl, fun htaken => ?_, fun hnot => ?_⟩
    · rw [State.setPc_pc, if_pos htaken, samePageTarget_toNat, toNat_add_one]
    · rw [State.setPc_pc, if_neg (Bool.eq_false_iff.mp hnot), toNat_add_one]
  · obtain ⟨hf, hpc⟩ := not_canAdvance_iff.mp hadv
    exact operandFetchAtTheTopRaises (.jcn c) s rfl hf hpc

/-- Settles O31: the pair's value is the low byte of the target. -/
theorem jinReplacesTheLowByteByThePair : Obligations.JinReplacesTheLowByteByThePair := by
  refine fun p s => ⟨fun J op hop => decode_of_toNat rfl hop, _, rfl, rfl, fun hi lo hhi hlo => ?_⟩
  obtain rfl : hi = pairHi p := Fin.ext hhi
  obtain rfl : lo = pairLo p := Fin.ext hlo
  rw [State.setPc_pc, samePageTarget_toNat, readPair_toNat, Nat.add_assoc]

/-- Settles O33: the push writes the slot under the cursor and leaves the two others. -/
theorem jmsPushesTheAddressAfterAndJumps : Obligations.JmsPushesTheAddressAfterAndJumps := by
  refine fun a4 s => ⟨fun J op hop => decode_jump_of_toNat rfl hop, fun hadv => ?_⟩
  refine ⟨_, exec_jms_next a4 hadv, rfl, absoluteTarget_toNat _ _, cursor_val_add_one s.sp, ?_, fun k hk => ?_⟩
  · exact (congrArg BitVec.toNat (stack_push_self _ rfl)).trans (toNat_add_one s.pc)
  · exact stack_push_other _ hk

/-- Settles O35: the stack the BBL finds is that of the push, and a pop after a push returns what was pushed. -/
theorem bblReturnsAfterTheMatchingJms : Obligations.BblReturnsAfterTheMatchingJms := by
  intro a4 d s t u hjms hstack hsp
  rw [eq_of_exec_jms_next hjms] at hstack hsp
  have hpop : popValue u = s.pc + 1 := (popValue_congr hstack hsp).trans (popValue_push _ s)
  have hback : poppedSp u = s.sp := (congrArg (· - 1) hsp).trans (poppedSp_push (s.pc + 1) s)
  exact ⟨_, rfl, (congrArg BitVec.toNat hpop).trans (toNat_add_one s.pc), rfl, hback, rfl⟩

/-- Settles O60: both advances succeed, the byte decodes to the JUN, and its target is the counter's own value. -/
theorem junToItselfChangesNothing : Obligations.JunToItselfChangesNothing := by
  intro a4 lo s hpc hop hlo htop hroom
  have hadv : CanAdvance s := hroom.imp_right fun hlt hmax => by simp [hmax] at hlt
  have hadv' : CanAdvance (s.setPc (s.pc + 1)) := by
    refine not_not.mp fun h => ?_
    obtain ⟨hf, hlast⟩ := not_canAdvance_setPc_add_one_iff.mp h
    simp [hf, hlast] at hroom
  have hdecode : decode s.params.jumpTop (memRead s s.pc) = some (.jun a4) := by
    rw [hop]
    exact decode_encode (i := .jun a4) (by simpa [Instr.wellFormed] using htop)
  rw [step_eq_exec hadv hdecode, exec_jun_next a4 hadv', State.setPc_pc, memRead_setPc, hlo]
  exact congrArg (fun a => Host.Outcome.next (s.setPc a)) hpc.symm

/-- Settles O29: the highest set bit of 0 to 2 decides what is tested, and bit 3 inverts it. -/
theorem jcnConditionForEveryMask : Obligations.JcnConditionForEveryMask := by
  intro init s
  have htest : ∀ b : Bit, (!decide (b = 0)) = decide (b = 1) := by decide
  have hcy : ∀ b : Bit, (!decide (b = 1)) = decide (b = 0) := by decide
  have hacc : (!decide (s.acc = 0)) = decide (s.acc ≠ 0) := decide_not.symm
  exact ⟨rfl, rfl, rfl, htest s.test, rfl, hcy s.cy, rfl, hcy s.cy, rfl, hacc, rfl, hacc, rfl, hacc, rfl, hacc⟩

/-- Settles O32: the target is the four bits of the opcode above the operand byte. -/
theorem junJumpsToTheAbsoluteAddress : Obligations.JunJumpsToTheAbsoluteAddress :=
  fun a4 _ => ⟨fun _ _ hop => decode_jump_of_toNat rfl hop,
    fun hadv => ⟨_, exec_jun_next a4 hadv, rfl, absoluteTarget_toNat _ _⟩⟩

/-- Settles O34: the handler pops, and then loads its immediate. -/
theorem bblPopsThePcAndLoadsAcc : Obligations.BblPopsThePcAndLoadsAcc :=
  fun _ s => ⟨fun _ _ hop => decode_of_toNat rfl hop, _, rfl, rfl, cursor_val_sub_one s.sp, rfl⟩

end Sys2Proof.Machine

namespace Sys2Proof.Machine

open Sys2Proof.Safety

/-! ## Register transfer (42_transfer.md) -/

theorem exec_fim_next (p : PairIx) {s : State} (h : CanAdvance s) :
    exec (.fim p) s = .next (writePair (s.setPc (s.pc + 1)) p (memRead s s.pc)) := by
  rw [exec, execFim, fetch8_next h]

@[simp] theorem readReg_setAcc (s : State) (v : Nibble) (r : RegIx) : readReg (s.setAcc v) r = readReg s r := rfl

/-- Writing a register's old value back undoes a write to it. -/
theorem setReg_setReg_readReg (s : State) (r : RegIx) (v : Nibble) : (s.setReg r v).setReg r (readReg s r) = s := by
  simp [State.setReg, readReg]

/-- XCH twice is no change: the second one finds the two old values and writes each back where it was. -/
theorem exec_xch_exec_xch (r : RegIx) (s : State) : andThen (exec (.xch r) s) (exec (.xch r)) = .next s := by
  have hback : readReg ((s.setAcc (readReg s r)).setReg r s.acc) r = s.acc := readReg_setReg_self _ _ _
  rw [exec, execXch, andThen_next, exec, execXch, hback]
  exact congrArg Host.Outcome.next (setReg_setReg_readReg s r s.acc)

/-! ### The obligations of 42_transfer.md -/

/-- Settles O36: where the fetch advances, the handler writes the byte it fetched to the pair, and a register is the even
one of the pair, the odd one, or no part of it. -/
theorem fimLoadsTheOperandByteIntoThePair : Obligations.FimLoadsTheOperandByteIntoThePair := by
  refine fun p s => ⟨fun J op hop => decode_of_toNat rfl hop, fun hadv => ?_⟩
  refine ⟨_, exec_fim_next p hadv, rfl, toNat_add_one s.pc, fun q => ⟨fun hq => ?_, fun hq => ?_, fun hq => ?_⟩⟩
  · obtain rfl : q = pairHi p := Fin.ext hq
    rw [readReg_writePair_hi, highNibble_toNat]
  · obtain rfl : q = pairLo p := Fin.ext hq
    rw [readReg_writePair_lo, lowNibble_toNat]
  · rw [readReg_writePair_other _ _ hq, readReg_setPc]

/-- Settles O38: the handler writes the accumulator and the one register, and a second XCH undoes it. -/
theorem xchSwapsAccAndTheRegister : Obligations.XchSwapsAccAndTheRegister := by
  refine fun r s => ⟨fun J op hop => decode_of_toNat rfl hop, _, rfl, rfl, ?_, fun q hq => ?_, exec_xch_exec_xch r s⟩
  · exact readReg_setReg_self _ r s.acc
  · rw [readReg_setReg_other _ _ hq, readReg_setAcc]

/-- Settles O37: the handler is that write of the accumulator. -/
theorem ldCopiesTheRegisterToAcc : Obligations.LdCopiesTheRegisterToAcc :=
  fun _ _ => ⟨fun _ _ hop => decode_of_toNat rfl hop, rfl⟩

/-- Settles O39: the handler is that write of the accumulator. -/
theorem ldmLoadsTheImmediate : Obligations.LdmLoadsTheImmediate :=
  fun _ _ => ⟨fun _ _ hop => decode_of_toNat rfl hop, rfl⟩

end Sys2Proof.Machine

namespace Sys2Proof.Machine

/-! ## Arithmetic and the accumulator (43_accumulator.md) -/

/-! ### The exact sums and 4 bits (R85) -/

theorem toNat_ofNat_nibble {n : Nat} (h : n ≤ 15) : (BitVec.ofNat 4 n).toNat = n :=
  (BitVec.toNat_ofNat n 4).trans (Nat.mod_eq_of_lt (by omega))

/-- Bit 4 of a sum of at most 31 is its overflow of 4 bits. -/
theorem testBit_four_iff {n : Nat} (h : n ≤ 31) : n.testBit 4 = true ↔ 16 ≤ n := by
  rw [Nat.testBit_eq_decide_div_mod_eq, decide_eq_true_eq]
  omega

/-! ### ADD (R87) -/

theorem addTo_of_overflow {s : State} {x : Nibble} (h : addSum s.acc s.cy x > 15) :
    addTo s x = (s.setCy 1).setAcc (BitVec.ofNat 4 (addSum s.acc s.cy x - 16)) := if_pos h

theorem addTo_of_fits {s : State} {x : Nibble} (h : addSum s.acc s.cy x ≤ 15) :
    addTo s x = s.setAcc (BitVec.ofNat 4 (addSum s.acc s.cy x)) := if_neg (Nat.not_lt.mpr h)

theorem addSum_le (acc : Nibble) (cy : Bit) (x : Nibble) : addSum acc cy x ≤ 31 := by
  unfold addSum
  omega

/-! ### SUB (R88) -/

/-- The sum with both complements written as differences. -/
theorem subSum_eq (acc : Nibble) (cy : Bit) (x : Nibble) :
    subSum acc cy x = acc.toNat + (15 - x.toNat) + (1 - cy.toNat) := by
  simp only [subSum, cellInverted, BitVec.toNat_not]

theorem subSum_le (acc : Nibble) (cy : Bit) (x : Nibble) : subSum acc cy x ≤ 31 := by
  rw [subSum_eq]
  omega

/-- The carry and the accumulator that SUB leaves are the five bits of its sum. -/
theorem subFrom_sum (s : State) (x : Nibble) :
    16 * (subFrom s x).cy.toNat + (subFrom s x).acc.toNat = subSum s.acc s.cy x := by
  have hle := subSum_le s.acc s.cy x
  unfold subFrom
  split
  case isTrue hbit =>
    have hge := (testBit_four_iff hle).mp hbit
    rw [State.setAcc_cy, State.setCy_cy, State.setAcc_acc, toNat_ofNat_nibble (by omega)]
    exact Nat.add_sub_cancel' hge
  case isFalse hbit =>
    have hlt := mt (testBit_four_iff hle).mpr hbit
    rw [State.setAcc_cy, State.setCy_cy, State.setAcc_acc, toNat_ofNat_nibble (by omega)]
    exact Nat.zero_add _

/-! ### DAC (R92) -/

theorem decrementAcc_of_zero {s : State} (h : s.acc = 0) :
    decrementAcc s = (s.setAcc s.params.dacZeroResult).setCy 0 := if_pos h

theorem decrementAcc_of_ne_zero {s : State} (h : s.acc ≠ 0) :
    decrementAcc s = (s.setAcc (BitVec.ofNat 4 (s.acc.toNat - 1))).setCy 1 := if_neg h

/-! ### The obligations of 43_accumulator.md -/

/-- Settles O41: on an overflow the handler writes both cells, otherwise the accumulator only. -/
theorem addSetsCarryOnOverflowAndNeverClearsIt : Obligations.AddSetsCarryOnOverflowAndNeverClearsIt := by
  refine fun r s => ⟨fun J op hop => decode_of_toNat rfl hop, _, rfl, addTo_writes_acc_cy s _, fun hover => ?_,
    fun hfits => ?_⟩
  · have hle := addSum_le s.acc s.cy (readReg s r)
    rw [addTo_of_overflow hover, State.setAcc_acc, toNat_ofNat_nibble (by omega)]
    exact ⟨rfl, Nat.sub_add_cancel hover⟩
  · rw [addTo_of_fits hfits]
    exact ⟨rfl, toNat_ofNat_nibble hfits⟩

/-- Settles O42: each clause is arithmetic on the five bits of the sum. -/
theorem subAddsTheComplements : Obligations.SubAddsTheComplements := by
  refine fun r s => ⟨fun J op hop => decode_of_toNat rfl hop, _, rfl, subFrom_writes_acc_cy s _, ?_⟩
  have hsum := subFrom_sum s (readReg s r)
  rw [subSum_eq] at hsum
  refine ⟨fun hborrow => ?_, fun hnone => ?_, ?_, ?_⟩ <;> bv_omega

/-- Settles O45: below 15 the increment is in range, and at 15 the handler raises before any write. -/
theorem iacIncrementsOrRaisesAtFifteen : Obligations.IacIncrementsOrRaisesAtFifteen := by
  refine fun s => ⟨fun J op hop => decode_of_toNat rfl hop, fun hbelow => ?_, fun hmax => ?_⟩
  · refine ⟨_, execIac_next hbelow, rfl, ?_⟩
    have hlt := ne_fifteen_iff.mp hbelow
    rw [State.setAcc_acc]
    bv_omega
  · rw [exec, execIac_raise hmax]
    exact raise_changes_no_cell _ s

/-- Settles O40: the register written reads as the sum, and no other register is written. -/
theorem incWrapsAndKeepsTheCarry : Obligations.IncWrapsAndKeepsTheCarry := by
  refine fun r s => ⟨fun J op hop => decode_of_toNat rfl hop, _, rfl, rfl, ?_,
    fun q hq => readReg_setReg_other _ _ hq⟩
  rw [readReg_setReg_self, toNat_ofNat_nibble (by omega)]

/-- Settles O43: the handler is those two writes. -/
theorem clbClearsAccAndCarry : Obligations.ClbClearsAccAndCarry :=
  fun _ => ⟨fun _ _ hop => decode_of_toNat rfl hop, rfl⟩

/-- Settles O44: the handler is that write of cy. -/
theorem clcClearsCarryOnly : Obligations.ClcClearsCarryOnly :=
  fun _ => ⟨fun _ _ hop => decode_of_toNat rfl hop, rfl⟩

/-- Settles O46: the handler's two branches, with cy written in both. -/
theorem dacDecrementsWithInvertedBorrow : Obligations.DacDecrementsWithInvertedBorrow := by
  refine fun s => ⟨fun J op hop => decode_of_toNat rfl hop, fun hzero => ?_, fun hpos => ?_⟩
  · rw [exec, execDac, decrementAcc_of_zero hzero]
    rfl
  · have hne : s.acc.toNat ≠ 0 := BitVec.toNat_ne.mp hpos
    rw [exec, execDac, decrementAcc_of_ne_zero hpos]
    refine ⟨_, rfl, rfl, ?_⟩
    rw [State.setCy_acc, State.setAcc_acc, toNat_ofNat_nibble (by omega)]
    omega

end Sys2Proof.Machine

namespace Sys2Proof.Machine

open Sys2Proof.Safety

/-! ## Errors and the fault log (60_exceptions.md) -/

/-! ### What one outcome does to the fault log (R100) -/

/-- From the fault log `log`, the outcome keeps the log if it is a next state and adds its error at the end if it is a
fault. -/
def RecordsErrors (log : List ErrorInfo) (o : Result) : Prop :=
  (∀ t, o = .next t → t.faultLog = log) ∧ ∀ f, o = .fault f → f.after.faultLog = log ++ [f.info]

theorem recordsErrors_next {log : List ErrorInfo} {t : State} (h : t.faultLog = log) : RecordsErrors log (.next t) := by
  refine ⟨fun u hu => ?_, nofun⟩
  cases hu
  exact h

theorem recordsErrors_raise (e : ErrorInfo) (s : State) : RecordsErrors s.faultLog (raise e s) := by
  refine ⟨fun t ht => absurd ht (raise_ne_next e s t), fun f hf => ?_⟩
  obtain ⟨hinfo, hafter⟩ := raise_fault hf
  rw [hinfo, hafter, State.logError_faultLog]

theorem recordsErrors_refused (log : List ErrorInfo) (r : Refusal) : RecordsErrors log (.refused r) := ⟨nofun, nofun⟩

/-! ### Every move records its error -/

/-- A completed instruction does not write the fault log. -/
theorem withWritesOf_faultLog (i : Instr) (s t : State) : (withWritesOf i s t).faultLog = s.faultLog := by
  cases i <;> rfl

theorem exec_recordsErrors (i : Instr) (s : State) : RecordsErrors s.faultLog (exec i s) := by
  obtain ⟨t, ht, hc⟩ | ⟨e, he⟩ := exec_cases i s
  · rw [ht]
    refine recordsErrors_next ?_
    rw [hc, withWritesOf_faultLog]
  · rw [he]
    exact recordsErrors_raise e s

/-- The advance past the opcode byte, which comes before the last two cases, keeps the log. -/
theorem step_recordsErrors (s : State) : RecordsErrors s.faultLog (step s) := by
  obtain ⟨-, -, he⟩ | ⟨-, -, he⟩ | ⟨i, -, -, he⟩ := step_cases s
  · rw [he]
    exact recordsErrors_raise _ s
  · rw [he]
    exact recordsErrors_raise _ (s.setPc (s.pc + 1))
  · rw [he]
    exact exec_recordsErrors i (s.setPc (s.pc + 1))

theorem hostWrite_recordsErrors (c : CellName) (v : HostValue) (s : State) :
    RecordsErrors s.faultLog (hostWrite c v s) := by
  obtain ⟨n, t, -, hset, he⟩ | ⟨n, e, -, -, he⟩ | ⟨x, -, he⟩ := hostWrite_cases c v s
  · obtain ⟨-, rfl⟩ := hostSet_ok_iff.mp hset
    obtain ⟨-, -, -, hlog⟩ := cellWritten_keeps c n s
    rw [he]
    exact recordsErrors_next hlog
  · rw [he]
    exact recordsErrors_raise e s
  · rw [he]
    exact recordsErrors_refused _ _

theorem loadImage_recordsErrors (start : Int) (bytes : List Byte) (s : State) :
    RecordsErrors s.faultLog (loadImage start bytes s) := by
  obtain ⟨-, he⟩ | ⟨-, v, he⟩ := loadImage_cases start bytes s
  · rw [he]
    exact recordsErrors_next (State.setMem_faultLog s _)
  · rw [he]
    exact recordsErrors_raise _ s

theorem hostMove_recordsErrors (m : HostMove) (s : State) : RecordsErrors s.faultLog (hostMove m s) := by
  cases m with
  | step => exact step_recordsErrors s
  | write c v => exact hostWrite_recordsErrors c v s
  | loadImage start bytes => exact loadImage_recordsErrors start bytes s

/-! ### The log over a session -/

/-- The host goes on with a log that extends the one it had. -/
theorem faultLog_prefix_stateAfter {s : State} {o : Result} (h : RecordsErrors s.faultLog o) :
    s.faultLog <+: (stateAfter s o).faultLog := by
  obtain ⟨hnext, hfault⟩ := h
  cases o with
  | next t => exact ⟨[], (List.append_nil _).trans (hnext t rfl).symm⟩
  | fault f => exact ⟨[f.info], (hfault f rfl).symm⟩
  | refused r => exact List.prefix_refl _

theorem faultLog_prefix_hostSession (moves : List HostMove) (s : State) :
    s.faultLog <+: (hostSession moves s).faultLog := by
  induction moves generalizing s with
  | nil => exact List.prefix_refl _
  | cons m rest ih => exact (faultLog_prefix_stateAfter (hostMove_recordsErrors m s)).trans (ih _)

/-! ### An unregistered byte (R66, R94) -/

/-- The lookup raises at the state whose counter is past the byte. -/
theorem step_raise_unregistered {s : State} (h : CanAdvance s) (hd : decode s.params.jumpTop (memRead s s.pc) = none) :
    step s = raise (.unknownOpcode (memRead s s.pc) s.pc) (s.setPc (s.pc + 1)) := by
  rw [step, fetch8_next h, State.setPc_params, hd]

/-! ### The obligations of 60_exceptions.md -/

/-- Settles O27: each move records its error, and by induction on the moves the log of a session only grows. -/
theorem faultLogIsNeverCleared : Obligations.FaultLogIsNeverCleared := by
  refine ⟨hostMove_recordsErrors, fun moves s => ?_⟩
  obtain ⟨errors, h⟩ := faultLog_prefix_hostSession moves s
  exact ⟨errors, h.symm⟩

/-- Settles O21: the raise changes no cell of the state whose counter is past the byte. -/
theorem unregisteredByteRaisesPastIt : Obligations.UnregisteredByteRaisesPastIt := by
  intro s hadv hd
  rw [step_raise_unregistered hadv hd]
  obtain ⟨f, hf, hinfo, hafter⟩ := raise_changes_no_cell (.unknownOpcode (memRead s s.pc) s.pc) (s.setPc (s.pc + 1))
  refine ⟨f, hf, hinfo, hafter, ?_⟩
  rw [hafter]
  exact toNat_add_one s.pc

end Sys2Proof.Machine

namespace Sys2Proof.Machine

open Sys2Proof.Safety

/-! ## Runs (70_reset_and_hazards.md R114) -/

/-! ### The first step of a run -/

section FirstStep

variable {s t : State} {f : Fault} (n : Nat)

theorem runSteps_succ_next (h : step s = .next t) : runSteps (n + 1) s = runSteps n t := by
  rw [runSteps, h, andThen_next]

theorem runSteps_succ_fault (h : step s = .fault f) : runSteps (n + 1) s = .fault f := by
  rw [runSteps, h, andThen_fault]

/-- A step that completes puts its byte before those of the rest of the run. -/
theorem hostRun_succ_next (h : step s = .next t) :
    hostRun (n + 1) s = { hostRun n t with bytes := memRead s s.pc :: (hostRun n t).bytes } := by
  rw [hostRun, (stepReturnsTheOpcodeByte s).1 t h]

/-- A step that raises ends the run at the state its error leaves, with no byte. -/
theorem hostRun_succ_fault (h : step s = .fault f) :
    hostRun (n + 1) s = { final := f.after, bytes := [], error := some f } := by
  rw [hostRun, (stepReturnsTheOpcodeByte s).2 f h]

end FirstStep

/-! ### The whole run -/

/-- All that a run of `n` steps can do: every step completes, or one of them raises before the `n`th byte is returned. -/
theorem hostRun_cases (n : Nat) (s : State) :
    (runSteps n s = .next (hostRun n s).final ∧ (hostRun n s).error = none ∧ (hostRun n s).bytes.length = n) ∨
      ∃ f, runSteps n s = .fault f ∧
        (hostRun n s).final = f.after ∧ (hostRun n s).error = some f ∧ (hostRun n s).bytes.length < n := by
  induction n generalizing s with
  | zero => exact .inl ⟨rfl, rfl, rfl⟩
  | succ n ih =>
    obtain ⟨t, ht⟩ | ⟨f, hf⟩ := step_next_or_fault s
    · rw [runSteps_succ_next n ht, hostRun_succ_next n ht]
      obtain ⟨hrun, herror, hlength⟩ | ⟨f, hrun, hfinal, herror, hlength⟩ := ih t
      · exact .inl ⟨hrun, herror, congrArg (· + 1) hlength⟩
      · exact .inr ⟨f, hrun, hfinal, herror, Nat.succ_lt_succ hlength⟩
    · rw [runSteps_succ_fault n hf, hostRun_succ_fault n hf]
      exact .inr ⟨f, rfl, rfl, rfl, n.succ_pos⟩

/-! ### The obligation of 70_reset_and_hazards.md -/

/-- Settles O59: the two cases of a run, by induction on its steps, fix what stepping the machine answers. -/
theorem runEndsAfterNStepsOrAtTheFirstError : Obligations.RunEndsAfterNStepsOrAtTheFirstError := by
  intro n s
  obtain ⟨hrun, herror, hlength⟩ | ⟨f, hrun, hfault⟩ := hostRun_cases n s
  · rw [hrun]
    refine ⟨fun t ht => ?_, nofun, nofun⟩
    cases ht
    exact ⟨rfl, herror, hlength⟩
  · rw [hrun]
    refine ⟨nofun, fun g hg => ?_, nofun⟩
    cases hg
    exact hfault

end Sys2Proof.Machine
